-- ==== Sys2Proof/Word.lean ====
section
/-! DEFINITION. The bit-vector types of the block: data byte, character code, alphabet index, accumulator, command word. -/

namespace Sys2Proof

/-- A data byte: `BYTEW` = 8 bits (00 R6). -/
abbrev Byte := BitVec 8

/-- A character code: `CHARW` = 8 bits (00 R6, decision D8). -/
abbrev CharCode := BitVec 8

/-- A 5-bit group, an index into the alphabet: `GROUPW` = 5 bits (00 R6). -/
abbrev Index := BitVec 5

/-- An accumulator: `ACCW` = 40 bits (10 R11, R12, decision D7). -/
abbrev Acc := BitVec 40

/-- A command word: `CMDW` = 10 bits, `op[9:8]` and `data[7:0]` (30 R50, decision D3). -/
abbrev CmdWord := BitVec 10

end Sys2Proof
end

