-- ==== Sys2Proof/Syntax.lean ====
section
/-! DEFINITION. What the host presents: the six commands (one constructor per row of spec/opcode_table.json), the two
command ports, and a host move, which is a word on a port or an assertion of `RST`. -/

namespace Sys2Proof

/-- The two command ports (10 R25). A word does not say which unit it is for: the port does (30 R50). -/
inductive Port where
  | enc  -- `ENC.CMD`
  | dec  -- `DEC.CMD`
  deriving DecidableEq, Repr

/-- The six commands (30 R51, R52). A datum is the 8-bit `data` field (20 R41). -/
inductive Instr where
  /-- `ENC.PUSH d` (40 R74): one more byte of the message, not the last. -/
  | encPush (d : Byte)
  /-- `ENC.PUSHL d` (40 R75): the last byte of the message. -/
  | encPushl (d : Byte)
  /-- `ENC.END` (40 R76): the message ends here, no byte comes with it. -/
  | encEnd
  /-- `DEC.PUSH c` (41 R95): one more character of the message, not the last. -/
  | decPush (c : CharCode)
  /-- `DEC.PUSHL c` (41 R96): the last character of the message. -/
  | decPushl (c : CharCode)
  /-- `DEC.END` (41 R97): the message ends here, no character comes with it. -/
  | decEnd
  deriving DecidableEq, Repr

/-- The port a command is presented on (30 R51). -/
def Instr.port : Instr → Port
  | .encPush _ => .enc
  | .encPushl _ => .enc
  | .encEnd => .enc
  | .decPush _ => .dec
  | .decPushl _ => .dec
  | .decEnd => .dec

/-- Does the command end a message (42 R120: exactly `PUSHL` and `END` do)? -/
def Instr.endsMessage : Instr → Bool
  | .encPush _ => false
  | .encPushl _ => true
  | .encEnd => true
  | .decPush _ => false
  | .decPushl _ => true
  | .decEnd => true

/-- The datum a command carries, if it carries one (20 R41, 30 R51). -/
def Instr.datum : Instr → Option (BitVec 8)
  | .encPush d => some d
  | .encPushl d => some d
  | .encEnd => none
  | .decPush c => some c
  | .decPushl c => some c
  | .decEnd => none

/-- The two classes of reserved command words (30 R54). -/
inductive ReservedWord where
  /-- `op = 0b11`: 256 words on each port. -/
  | op3
  /-- `op = 0b10` with `data` not `0x00`: 255 words on each port. -/
  | endWithData
  deriving DecidableEq, Repr

/-- One move of the host (70 R170, R183, R184): a word presented on a command port, or `RST`. -/
inductive HostMove where
  | word (p : Port) (w : CmdWord)
  | rst
  deriving DecidableEq, Repr

end Sys2Proof
end

