-- ==== Sys2Proof/WellFormed.lean ====
section
/-! DEFINITION. What a host may present: a command, a move that is no reserved word, a whole message to one unit. -/

namespace Sys2Proof

/-- A command is well formed. Every field of `Instr` is a bit vector of exactly the width of its field of the word
(30 R50), and each of the 256 data is legal on both ports (30 R53, R55), so no term of `Instr` is ill formed. -/
def Instr.wf : Instr → Bool
  | .encPush _ => true
  | .encPushl _ => true
  | .encEnd => true
  | .decPush _ => true
  | .decPushl _ => true
  | .decEnd => true

/-- A word that is not reserved: `op` is `0b00` or `0b01`, or the word is `0x200` (30 R54). -/
def CmdWord.admissible (w : CmdWord) : Bool := decide (w.toNat ≤ 0x200)

/-- A move the host is allowed (70 R178): anything but a reserved word. -/
def HostMove.admissible : HostMove → Bool
  | .word _ w => CmdWord.admissible w
  | .rst => true

/-- The admission check of a run (93 U1): it holds no reserved word. -/
def admissible (ms : List HostMove) : Bool := ms.all HostMove.admissible

/-- A whole message on one port (42 R120): zero or more `PUSH`, then exactly one `PUSHL` or `END`. -/
def isMessage (p : Port) : List Instr → Bool
  | [] => false
  | [i] => decide (i.port = p) && i.endsMessage
  | i :: is => decide (i.port = p) && !i.endsMessage && isMessage p is

/-- A datum of the written notation is a number from 0 to 255 (30 R60). -/
def datumInRange (n : Nat) : Bool := decide (n ≤ 255)

end Sys2Proof
end

