-- ==== Sys2Proof/Decode.lean ====
section
/-! DEFINITION. Command words to commands (30_encoding.md R50 to R54) and back, the opcode table as data, and the
host's numbering of a table word. -/

namespace Sys2Proof

/-- The `op` field, bits `[9:8]` (30 R50). -/
def opField (w : CmdWord) : BitVec 2 := (w >>> 8).setWidth 2

/-- The `data` field, bits `[7:0]` (30 R50). -/
def dataField (w : CmdWord) : BitVec 8 := w.setWidth 8

/-- The command a word on a port names (30 R51), or which reserved class it falls in (30 R54). -/
def decode (p : Port) (w : CmdWord) : Except ReservedWord Instr :=
  if opField w = 0#2 then
    match p with
    | .enc => .ok (.encPush (dataField w))
    | .dec => .ok (.decPush (dataField w))
  else if opField w = 1#2 then
    match p with
    | .enc => .ok (.encPushl (dataField w))
    | .dec => .ok (.decPushl (dataField w))
  else if opField w = 2#2 then
    if dataField w = 0#8 then
      match p with
      | .enc => .ok .encEnd
      | .dec => .ok .decEnd
    else .error .endWithData
  else .error .op3

/-- Host's numbering of one instruction's bits: `w` cut to the `nbits` bits the table gives. -/
def tableBits (nbits w : Nat) : Nat := w % 2 ^ nbits

/-- The port of a table word. The table's rows of the two ports share their bits (30 R52), so the ten bits cannot say
which: bit 10, above the word and 0 in every row of the table, says it in the model (0: `ENC.CMD`, 1: `DEC.CMD`).
DESIGN CHOICE, log entry 7; safe: `decode` and `step` never see this bit. -/
def tablePort (nbits w : Nat) : Port := if (tableBits nbits w).testBit 10 then .dec else .enc

/-- The command word of a table word: its bits `[9:0]`. -/
def tableWord (nbits w : Nat) : CmdWord := BitVec.ofNat 10 (tableBits nbits w)

/-- The instruction the decoder reads from a table word; none where it refuses. -/
def decodeTableWord (nbits w : Nat) : Option Instr :=
  if tableBits nbits w < 2 ^ 11 then (decode (tablePort nbits w) (tableWord nbits w)).toOption else none

/-- A command word laid out from its two fields (30 R50). -/
def cmdWord (op : BitVec 2) (data : BitVec 8) : CmdWord := (op ++ data : BitVec 10)

/-- The word of a command (30 R52). The port it goes to is `Instr.port`. -/
def encode : Instr → CmdWord
  | .encPush d => cmdWord 0#2 d
  | .encPushl d => cmdWord 1#2 d
  | .encEnd => cmdWord 2#2 0#8
  | .decPush c => cmdWord 0#2 c
  | .decPushl c => cmdWord 1#2 c
  | .decEnd => cmdWord 2#2 0#8

/-- One row of the opcode table (30 R52): a word `w` on the row's port names its command when `w & mask = value`. -/
structure OpcodeRow where
  mnemonic : String
  port : Port
  mask : CmdWord
  value : CmdWord
  deriving DecidableEq, Repr

/-- Does a word on a port match the row (30 R52)? -/
def OpcodeRow.fits (r : OpcodeRow) (p : Port) (w : CmdWord) : Bool :=
  decide (r.port = p) && decide (w &&& r.mask = r.value)

/-- A command's own row of the table (30 R52, spec/opcode_table.json). -/
def opcodeRow : Instr → OpcodeRow
  | .encPush _ => ⟨"ENC.PUSH", .enc, 0x300#10, 0x000#10⟩
  | .encPushl _ => ⟨"ENC.PUSHL", .enc, 0x300#10, 0x100#10⟩
  | .encEnd => ⟨"ENC.END", .enc, 0x3FF#10, 0x200#10⟩
  | .decPush _ => ⟨"DEC.PUSH", .dec, 0x300#10, 0x000#10⟩
  | .decPushl _ => ⟨"DEC.PUSHL", .dec, 0x300#10, 0x100#10⟩
  | .decEnd => ⟨"DEC.END", .dec, 0x3FF#10, 0x200#10⟩

/-- The whole opcode table, one row for each command (30 R52). -/
def opcodeTable : List OpcodeRow :=
  [opcodeRow (.encPush 0), opcodeRow (.encPushl 0), opcodeRow .encEnd,
   opcodeRow (.decPush 0), opcodeRow (.decPushl 0), opcodeRow .decEnd]

end Sys2Proof
end

