-- ==== Sys2Proof/Config.lean ====
section
/-! DEFINITION. The parameters of 00_scope.md R6 that are plain numbers. The widths that are types stand in Word.lean
and the constant tables, `DEC_BYTES` among them, in Machine/Tables.lean under this same namespace. -/

namespace Sys2Proof.Config

/-- `BYTEW`: bits of a data byte (00 R6, source). -/
def byteBits : Nat := 8

/-- `GROUPW`: bits of a group or alphabet index (00 R6, source). -/
def groupBits : Nat := 5

/-- `ENC_BLOCK`: bytes in a full encoder block (00 R6, source). -/
def encBlock : Nat := 5

/-- `DEC_BLOCK`: characters in a full decoder block (00 R6, source). -/
def decBlock : Nat := 8

end Sys2Proof.Config
end

