-- ==== Sys2Proof/Machine/Tables.lean ====
section
/-! DEFINITION. The four constant tables (10 R21): `ENC_GROUPS`, `DEC_BYTES`, `ALPHA`, `REV`. Character codes
are ASCII (PRESUMED, log entry 9). -/

namespace Sys2Proof.Config

/-- `ENC_GROUPS`: groups emitted for 0 to 5 bytes present (40 R70). -/
def encGroupsTable : Vector Nat 6 := #v[0, 2, 4, 5, 7, 8]

/-- `DEC_BYTES`: bytes emitted for 0 to 8 characters present (41 R90, decision D10, 90 C1). A claim about a tail of 3
or 6 characters depends on the spec's choice of 1 and 3 here. -/
def decBytesTable : Vector Nat 9 := #v[0, 0, 1, 1, 2, 3, 3, 4, 5]

/-- `ALPHA`: the 32 character codes the encoder emits, `a` to `z` then `2` to `7` (20 R31, decision D9). -/
def alphaTable : Vector CharCode 32 :=
  #v[0x61#8, 0x62#8, 0x63#8, 0x64#8, 0x65#8, 0x66#8, 0x67#8, 0x68#8,
     0x69#8, 0x6A#8, 0x6B#8, 0x6C#8, 0x6D#8, 0x6E#8, 0x6F#8, 0x70#8,
     0x71#8, 0x72#8, 0x73#8, 0x74#8, 0x75#8, 0x76#8, 0x77#8, 0x78#8,
     0x79#8, 0x7A#8, 0x32#8, 0x33#8, 0x34#8, 0x35#8, 0x36#8, 0x37#8]

end Sys2Proof.Config

namespace Sys2Proof.Machine

/-- `ENC_GROUPS[n]`, `n` from 0 to 5 (40 R70). -/
def encGroups (n : Fin 6) : Nat := Config.encGroupsTable.get n

/-- `DEC_BYTES[n]`, `n` from 0 to 8 (41 R90). -/
def decBytes (n : Fin 9) : Nat := Config.decBytesTable.get n

/-- `ALPHA[i]` (20 R31). -/
def alpha (i : Index) : CharCode := Config.alphaTable.get i.toFin

/-- `REV[c]`: the index a character stands for, none where the entry is `invalid` (20 R33, 41 R91). -/
def rev (c : CharCode) : Option Index :=
  if 0x41#8 ≤ c ∧ c ≤ 0x5A#8 then some ((c - 0x41#8).setWidth 5)
  else if 0x61#8 ≤ c ∧ c ≤ 0x7A#8 then some ((c - 0x61#8).setWidth 5)
  else if 0x32#8 ≤ c ∧ c ≤ 0x37#8 then some ((c - 0x32#8 + 26#8).setWidth 5)
  else none

end Sys2Proof.Machine
end

