-- ==== Sys2Proof/Machine/Operands.lean ====
section
/-! DEFINITION. Operand assembly and the lanes of the two accumulators (20 R36 to R38, 30 R53, R55, 40 R71, R72,
41 R92, R93). In states outside the invariants of 10 R23 they are what the pseudocode says (DESIGN CHOICE, log entry 2). -/

namespace Sys2Proof.Machine

/-- The encoder's operand: the byte zero-extended to 40 bits and shifted to byte lane `pos` (30 R53). -/
def encOperand (pos : Fin 5) (d : Byte) : Acc := d.setWidth 40 <<< (32 - 8 * pos.val)

/-- The decoder's operand: the index zero-extended to 40 bits and shifted to group lane `pos` (30 R55). -/
def decOperand (pos : Fin 8) (v : Index) : Acc := v.setWidth 40 <<< (35 - 5 * pos.val)

/-- `EncPlace(acc, pos, d)` (40 R71). -/
def encPlace (acc : Acc) (pos : Fin 5) (d : Byte) : Acc := acc ||| encOperand pos d

/-- `DecPlace(acc, pos, v)` (41 R92). -/
def decPlace (acc : Acc) (pos : Fin 8) (v : Index) : Acc := acc ||| decOperand pos v

/-- `EncGroup(acc, j)`: group lane `j` of the accumulator, `j` from 0 to 7 (40 R72). -/
def encGroup (acc : Acc) (j : Nat) : Index := ((acc >>> (35 - 5 * j)) &&& 0x1F#40).setWidth 5

/-- `EncChar(acc, j)`: the character emitted for group lane `j` (40 R72). -/
def encChar (acc : Acc) (j : Nat) : CharCode := alpha (encGroup acc j)

/-- `DecByte(acc, k)`: byte lane `k` of the accumulator, `k` from 0 to 4 (41 R93). -/
def decByte (acc : Acc) (k : Nat) : Byte := ((acc >>> (32 - 8 * k)) &&& 0xFF#40).setWidth 8

end Sys2Proof.Machine
end

