-- ==== Sys2Proof/Machine/State.lean ====
section
/-! DEFINITION. The block's state, the eight registers of 10_state.md R10, unit by unit; beside it the host's side of the
ports, which the model needs to be a machine that steps by itself. Why a step can stop. -/

namespace Sys2Proof.Machine

/-- The status field of a `DONE` beat (30 R58): two codes in use, two reserved and never emitted. -/
inductive Status where
  | ok                -- `0b00`
  | invalidCharacter  -- `0b01`
  | invalidLength     -- `0b10`, kept for a policy this hardware does not take (60 R142)
  | reserved          -- `0b11`
  deriving DecidableEq, Repr

/-- A beat on `ENC.RES` (30 R56): `CHAR(c)` or `DONE(status)`. -/
inductive EncBeat where
  | char (c : CharCode)
  | done (st : Status)
  deriving DecidableEq, Repr

/-- A beat on `DEC.RES` (30 R57): `BYTE(b)` or `DONE(status, char, pos)`. `DONE(OK)` is `done .ok 0 0`. -/
inductive DecBeat where
  | byte (b : Byte)
  | done (st : Status) (c : CharCode) (pos : Nat)
  deriving DecidableEq, Repr

/-- What the host has seen on a result port: a beat, or its own assertion of `RST` at this place (70 R172). -/
inductive Seen (β : Type) where
  | beat (b : β)
  | reset
  deriving DecidableEq, Repr

/-- The registers of the encoder unit (10 R10). -/
structure EncUnit where
  /-- `ENC.ACC`, 40 bits (10 R11). -/
  encAcc : Acc
  /-- `ENC.POS`, values 0 to 4 (DESIGN CHOICE, log entry 1): bytes of the current block placed (10 R14). -/
  encPos : Fin 5
  deriving DecidableEq, Repr

/-- The registers of the decoder unit (10 R10). -/
structure DecUnit where
  /-- `DEC.ACC`, 40 bits (10 R12). -/
  decAcc : Acc
  /-- `DEC.POS`, values 0 to 7 (log entry 1): characters of the current block placed (10 R15). -/
  decPos : Fin 8
  /-- `DEC.IDX`, an unbounded natural number (DESIGN CHOICE, log entry 3): characters of the message accepted
  (10 R16). -/
  decIdx : Nat
  /-- `DEC.ERR`: the decoder is FAULTED (10 R17). -/
  decErr : Bool
  /-- `DEC.ERRCHAR`, 8 bits: the offending character code (10 R17). -/
  decErrChar : CharCode
  /-- `DEC.ERRPOS`, an unbounded natural number (log entry 3): its position (10 R17). -/
  decErrPos : Nat
  deriving DecidableEq, Repr

/-- One instance of the block: its whole architectural state, these eight registers and nothing else (10 R10). No table,
no parameter and neither of the two buffers is in it (10 R21, R22). -/
structure Registers extends EncUnit, DecUnit
  deriving DecidableEq, Repr

/-- The host beside the block: what it will present and what it has seen. No unit holds any of this and no command reads
it (10 R21, R22): the meanings are functions of a unit's registers (DESIGN CHOICE, log entries 4, 5 and 14). -/
structure HostSide where
  /-- The host's moves still to come, in the order it will make them. -/
  pending : List HostMove
  /-- What the host has seen on `ENC.RES`, oldest first. -/
  encRes : List (Seen EncBeat)
  /-- What the host has seen on `DEC.RES`, oldest first. -/
  decRes : List (Seen DecBeat)
  deriving DecidableEq, Repr

/-- What a step steps: the block, and beside it the host on the other side of its ports (10 R25). -/
structure State extends Registers, HostSide
  deriving DecidableEq, Repr

/-- The encoder right after reset: both registers 0 (70 R171). -/
def EncUnit.reset : EncUnit where
  encAcc := 0
  encPos := 0

/-- The decoder right after reset: all six registers 0 (70 R171). -/
def DecUnit.reset : DecUnit where
  decAcc := 0
  decPos := 0
  decIdx := 0
  decErr := false
  decErrChar := 0
  decErrPos := 0

/-- The block right after reset (70 R171). -/
def Registers.reset : Registers where
  toEncUnit := EncUnit.reset
  toDecUnit := DecUnit.reset

/-- The machine right after reset: every register 0 (70 R171), no move pending and nothing seen on a port. -/
def State.reset : State where
  toRegisters := Registers.reset
  pending := []
  encRes := []
  decRes := []

/-- Why the machine stops with a fault: it never does. The block's one exception, `InvalidCharacter`, is an outcome it
goes on from (60 R160), and 93_implementation_defined.md gives nothing the treatment fault or stuck. So this type has
no constructor, and no step can answer a fault (DEDUCED, log entry 10; safe). -/
inductive Fault : Type
  deriving DecidableEq, Repr

/-- Why a step is refused. -/
inductive Refusal where
  /-- Raised by an arm of exec whose instruction has no meaning yet; safe. No arm raises it now. -/
  | notModelled (mnemonic : String)
  /-- Raised by step when the host presents a reserved command word, whose behaviour the spec does not define and
  which a model refuses (30 R54, 60 R151, 93 U1; DEDUCED, log entry 6); safe. -/
  | reservedCommandWord (p : Port) (why : ReservedWord) (w : CmdWord)
  deriving DecidableEq, Repr

/-- The outcome of a step of this machine. -/
abbrev Result := Host.Outcome State Fault Refusal

end Sys2Proof.Machine
end

