-- ==== Sys2Proof/Machine/Ops.lean ====
section
/-! DEFINITION. The named operations every command is made of: writing a unit's registers, the beats of a drain, the trap
entry and the trap return of `InvalidCharacter`. They are functions of one unit's registers (00 R2, 10 R21); below them,
what a unit's command does to the whole machine, and `RST`. -/

namespace Sys2Proof.Machine

/-! ### The encoder unit -/

/-- Write `ENC.ACC` and `ENC.POS`. -/
def EncUnit.set (u : EncUnit) (acc : Acc) (pos : Fin 5) : EncUnit := { u with encAcc := acc, encPos := pos }

/-- Both encoder registers back to their reset values (40 R75, R76). -/
def EncUnit.clear (u : EncUnit) : EncUnit := u.set 0 0

/-- The beats of `EncEmit(acc, n)`: the first `n` groups, most significant first (40 R72). -/
def encEmit (acc : Acc) (n : Nat) : List EncBeat := (List.range n).map fun j => .char (encChar acc j)

/-! ### The decoder unit -/

/-- Write `DEC.ACC` and `DEC.POS`. -/
def DecUnit.setBlock (u : DecUnit) (acc : Acc) (pos : Fin 8) : DecUnit := { u with decAcc := acc, decPos := pos }

/-- Write `DEC.IDX`. -/
def DecUnit.setIdx (u : DecUnit) (n : Nat) : DecUnit := { u with decIdx := n }

/-- Write the three error registers `DEC.ERR`, `DEC.ERRCHAR`, `DEC.ERRPOS`. -/
def DecUnit.setError (u : DecUnit) (err : Bool) (c : CharCode) (p : Nat) : DecUnit :=
  { u with decErr := err, decErrChar := c, decErrPos := p }

/-- All six decoder registers back to their reset values (41 R96, R97). -/
def DecUnit.clear (u : DecUnit) : DecUnit := ((u.setBlock 0 0).setIdx 0).setError false 0 0

/-- The beats of `DecEmit(acc, n)`: the first `n` bytes, most significant first (41 R93). -/
def decEmit (acc : Acc) (n : Nat) : List DecBeat := (List.range n).map fun k => .byte (decByte acc k)

/-- `raise InvalidCharacter(c, DEC.IDX)`: the trap entry (60 R146). `DEC.IDX` stays and no beat is emitted. -/
def DecUnit.raiseInvalidCharacter (u : DecUnit) (c : CharCode) : DecUnit := (u.setError true c u.decIdx).setBlock 0 0

/-- The trap return (60 R148): the recorded error leaves in the `DONE` beat and every decoder register goes back to its
reset value. -/
def DecUnit.returnInvalidCharacter (u : DecUnit) : DecUnit × List DecBeat :=
  (u.clear, [.done .invalidCharacter u.decErrChar u.decErrPos])

/-! ### The machine: a unit's command as the host sees it, and `RST` -/

/-- Set the host's moves still to come. -/
def State.setPending (s : State) (ms : List HostMove) : State := { s with pending := ms }

/-- What a command of the encoder does: its registers, and `emit ENC.RES` of its beats in order (00 R8, 20 R42). -/
def State.commandEnc (s : State) (r : EncUnit × List EncBeat) : State :=
  { s with toEncUnit := r.1, encRes := s.encRes ++ r.2.map Seen.beat }

/-- What a command of the decoder does: its registers, and `emit DEC.RES` of its beats in order (00 R8, 20 R42). -/
def State.commandDec (s : State) (r : DecUnit × List DecBeat) : State :=
  { s with toDecUnit := r.1, decRes := s.decRes ++ r.2.map Seen.beat }

/-- `RST` (70 R170, R171): every register of both units at its reset value, no beat (log entry 12). The host notes on
both ports that it asserted `RST` here (log entry 5). -/
def State.applyRst (s : State) : State :=
  { s with toRegisters := Registers.reset, encRes := s.encRes ++ [Seen.reset], decRes := s.decRes ++ [Seen.reset] }

end Sys2Proof.Machine
end

