-- ==== Sys2Proof/Machine/Flags.lean ====
section
/-! DEFINITION. The block's one flag, `DEC.ERR` (10 R17): how it is read, and the
condition on a character that sets it. It is written by the trap entry and the clearing operations of Ops.lean. The
encoder has no flag. -/

namespace Sys2Proof.Machine

/-- Does the character raise `InvalidCharacter` when `DEC.ERR = 0` (60 R140)? -/
def isInvalid (c : CharCode) : Bool := (rev c).isNone

/-- The decoder is FAULTED (60 R147). -/
def DecUnit.faulted (u : DecUnit) : Bool := u.decErr

end Sys2Proof.Machine
end

