-- ==== Sys2Proof/Machine/Decoder.lean ====
section
/-! DEFINITION. The meanings of `DEC.PUSH`, `DEC.PUSHL` and `DEC.END` (41_decoder.md R95 to R97), with the order of
checks of 60_exceptions.md R145: FAULTED first, then the classification, then the placement and the drain. Each is first
a function of the decoder's registers alone, answering the new registers and the beats (41 R107). -/

namespace Sys2Proof.Machine

/-- Place index `v`; the eighth of a block drains it (the last branch of 41 R95). -/
def DecUnit.accept (u : DecUnit) (v : Index) : DecUnit × List DecBeat :=
  let acc1 := decPlace u.decAcc u.decPos v
  if u.decPos = 7 then ((u.setBlock 0 0).setIdx (u.decIdx + 1), decEmit acc1 (decBytes 8))
  else ((u.setBlock acc1 (u.decPos + 1)).setIdx (u.decIdx + 1), [])

/-- End a decoder message without an error, its last block `acc` with `n` characters present: its bytes, `DONE(OK)`,
clear (the common end of 41 R96 and R97). -/
def DecUnit.finish (u : DecUnit) (acc : Acc) (n : Fin 9) : DecUnit × List DecBeat :=
  (u.clear, decEmit acc (decBytes n) ++ [.done .ok 0 0])

/-- `DEC.PUSH c` on the decoder (41 R95). -/
def DecUnit.push (u : DecUnit) (c : CharCode) : DecUnit × List DecBeat :=
  if u.faulted then (u, [])
  else match rev c with
    | none => (u.raiseInvalidCharacter c, [])
    | some v => u.accept v

/-- `DEC.PUSHL c` on the decoder (41 R96). When the last character is the first invalid one, trap entry and trap return
fall in this one command (60 R146, R148). -/
def DecUnit.pushl (u : DecUnit) (c : CharCode) : DecUnit × List DecBeat :=
  if u.faulted then u.returnInvalidCharacter
  else match rev c with
    | none => (u.raiseInvalidCharacter c).returnInvalidCharacter
    | some v => u.finish (decPlace u.decAcc u.decPos v) u.decPos.succ

/-- `DEC.END` on the decoder (41 R97). -/
def DecUnit.endMessage (u : DecUnit) : DecUnit × List DecBeat :=
  if u.faulted then u.returnInvalidCharacter
  else u.finish u.decAcc u.decPos.castSucc

/-- `DEC.PUSH c` (41 R95). -/
def execDecPush (c : CharCode) (s : State) : Result := .next (s.commandDec (s.toDecUnit.push c))

/-- `DEC.PUSHL c` (41 R96). -/
def execDecPushl (c : CharCode) (s : State) : Result := .next (s.commandDec (s.toDecUnit.pushl c))

/-- `DEC.END` (41 R97). -/
def execDecEnd (s : State) : Result := .next (s.commandDec s.toDecUnit.endMessage)

end Sys2Proof.Machine
end

