-- ==== Sys2Proof/Machine/Encoder.lean ====
section
/-! DEFINITION. The meanings of `ENC.PUSH`, `ENC.PUSHL` and `ENC.END` (40_encoder.md R74 to R76): each first as a function
of the encoder's registers alone, answering the new registers and the beats (40 R82). -/

namespace Sys2Proof.Machine

/-- End an encoder message whose last block is `acc` with `n` bytes present: its groups, `DONE(OK)`, clear
(the common end of 40 R75 and R76). -/
def EncUnit.finish (u : EncUnit) (acc : Acc) (n : Fin 6) : EncUnit × List EncBeat :=
  (u.clear, encEmit acc (encGroups n) ++ [.done .ok])

/-- `ENC.PUSH d` on the encoder (40 R74). -/
def EncUnit.push (u : EncUnit) (d : Byte) : EncUnit × List EncBeat :=
  let acc1 := encPlace u.encAcc u.encPos d
  if u.encPos = 4 then (u.clear, encEmit acc1 (encGroups 5))
  else (u.set acc1 (u.encPos + 1), [])

/-- `ENC.PUSHL d` on the encoder (40 R75). -/
def EncUnit.pushl (u : EncUnit) (d : Byte) : EncUnit × List EncBeat :=
  u.finish (encPlace u.encAcc u.encPos d) u.encPos.succ

/-- `ENC.END` on the encoder (40 R76). -/
def EncUnit.endMessage (u : EncUnit) : EncUnit × List EncBeat := u.finish u.encAcc u.encPos.castSucc

/-- `ENC.PUSH d` (40 R74). -/
def execEncPush (d : Byte) (s : State) : Result := .next (s.commandEnc (s.toEncUnit.push d))

/-- `ENC.PUSHL d` (40 R75). -/
def execEncPushl (d : Byte) (s : State) : Result := .next (s.commandEnc (s.toEncUnit.pushl d))

/-- `ENC.END` (40 R76). -/
def execEncEnd (s : State) : Result := .next (s.commandEnc s.toEncUnit.endMessage)

end Sys2Proof.Machine
end

