-- ==== Sys2Proof/Machine/Dispatch.lean ====
section
/-! DEFINITION. One arm per command, each a direct call of its meaning. -/

namespace Sys2Proof.Machine

def exec (i : Instr) (s : State) : Host.Outcome State Fault Refusal :=
  match i with
  | .encPush d => Sys2Proof.Machine.execEncPush d s
  | .encPushl d => Sys2Proof.Machine.execEncPushl d s
  | .encEnd => Sys2Proof.Machine.execEncEnd s
  | .decPush c => Sys2Proof.Machine.execDecPush c s
  | .decPushl c => Sys2Proof.Machine.execDecPushl c s
  | .decEnd => Sys2Proof.Machine.execDecEnd s

end Sys2Proof.Machine
end

