-- ==== Sys2Proof/Machine/Moves.lean ====
section
/-! DEFINITION. What one move of the host does to the block (70 R170, R183), and the bits of a table word as a move. -/

namespace Sys2Proof.Machine

/-- A word presented on a port: the command it names runs (20 R45); a reserved word is refused (30 R54, 93 U1). -/
def runWord (p : Port) (w : CmdWord) (s : State) : Result :=
  match decode p w with
  | .ok i => exec i s
  | .error why => .refused (.reservedCommandWord p why w)

/-- One move of the host: a word on a port, or `RST` (70 R170). -/
def runMove (m : HostMove) (s : State) : Result :=
  match m with
  | .rst => .next s.applyRst
  | .word p w => runWord p w s

/-- The moves that present a sequence of commands, each on its own port (30 R61, 42 R120). -/
def presented (is : List Instr) : List HostMove := is.map fun i => .word i.port (encode i)

/-- Moves made one after another (70 R183), stopping at the first that gives no next state. -/
def runMoves : List HostMove → State → Result
  | [], s => .next s
  | m :: ms, s =>
    match runMove m s with
    | .next t => runMoves ms t
    | .fault r => .fault r
    | .refused r => .refused r

/-- The moves that concern one unit: the words on its port, and `RST`. -/
def movesFor (p : Port) (ms : List HostMove) : List HostMove :=
  ms.filter fun m => match m with
    | .word q _ => decide (q = p)
    | .rst => true

/-- A table word as a move of the host, on the port `tablePort` gives (log entry 7). -/
def tableMove (nbits w : Nat) : HostMove := .word (tablePort nbits w) (tableWord nbits w)

end Sys2Proof.Machine
end

