-- ==== Sys2Proof/Machine/Step.lean ====
section
/-! DEFINITION. One step: the host's next move (DESIGN CHOICE, log entry 4), indivisible and without time (log entry 8). -/

namespace Sys2Proof.Machine

/-- One step of the machine: the host's next move is taken and run (20 R42, R45, 70 R182). With no move pending the
block keeps its registers (60 R155). -/
def step (s : State) : Host.Outcome State Fault Refusal :=
  match s.pending with
  | [] => .next s
  | m :: ms => runMove m (s.setPending ms)

/-- `s` with a table word presented as the host's very next move. -/
def State.withFetchWord (s : State) (nbits w : Nat) : State := s.setPending (tableMove nbits w :: s.pending)

end Sys2Proof.Machine
end

