-- ==== Sys2Proof/Machine/Beats.lean ====
section
/-! DEFINITION. Result beats as words (30_encoding.md R56 to R58), both ways. -/

namespace Sys2Proof.Machine

/-- The numeric status codes (30 R58, decision D6). -/
def Status.code : Status → BitVec 2
  | .ok => 0#2
  | .invalidCharacter => 1#2
  | .invalidLength => 2#2
  | .reserved => 3#2

/-- The status a code stands for (30 R58). -/
def Status.ofCode (v : BitVec 2) : Status :=
  if v = 0#2 then .ok else if v = 1#2 then .invalidCharacter else if v = 2#2 then .invalidLength else .reserved

/-- The low eleven bits both ports share: `status[10:9]`, `done[8]`, `data[7:0]` (30 R56, R57). -/
def beatLow (st : Status) (done : Bool) (data : BitVec 8) : BitVec 11 := st.code ++ BitVec.ofBool done ++ data

/-- A beat on `ENC.RES` as its 11-bit word (30 R56). -/
def EncBeat.word : EncBeat → BitVec 11
  | .char c => beatLow .ok false c
  | .done st => beatLow st true 0#8

/-- The low eleven bits of a beat on `DEC.RES` (30 R57). -/
def DecBeat.low : DecBeat → BitVec 11
  | .byte b => beatLow .ok false b
  | .done st c _ => beatLow st true c

/-- The `pos` field of a beat on `DEC.RES`, as an unbounded number (30 R57). -/
def DecBeat.posField : DecBeat → Nat
  | .byte _ => 0
  | .done _ _ p => p

/-- A beat on `DEC.RES` as a number, `IDXW` unbounded: `(pos << 11) | low` (30 R57). -/
def DecBeat.wordNat (b : DecBeat) : Nat := b.posField <<< 11 ||| b.low.toNat

/-- A beat on `DEC.RES` as its `11 + IDXW`-bit word (30 R57). Faithful while the position is below `2 ^ idxw` (93 U2). -/
def DecBeat.word (idxw : Nat) (b : DecBeat) : BitVec (idxw + 11) := BitVec.ofNat idxw b.posField ++ b.low

/-- Read a word of `ENC.RES` back; none where no beat has this word (30 R56). -/
def EncBeat.ofWord (w : BitVec 11) : Option EncBeat :=
  let st := Status.ofCode ((w >>> 9).setWidth 2)
  let data := w.setWidth 8
  if w.getLsbD 8 then (if data = 0#8 then some (.done st) else none)
  else (if st = .ok then some (.char data) else none)

/-- Read a word of `DEC.RES` back; none where no beat has this word (30 R57). -/
def DecBeat.ofWord (idxw : Nat) (w : BitVec (idxw + 11)) : Option DecBeat :=
  let st := Status.ofCode ((w >>> 9).setWidth 2)
  let data := w.setWidth 8
  let pos := (w >>> 11).toNat
  if w.getLsbD 8 then some (.done st data pos)
  else (if st = .ok ∧ pos = 0 then some (.byte data) else none)

end Sys2Proof.Machine
end

