-- ==== Sys2Proof/Machine/Message.lean ====
section
/-! DEFINITION. Whole messages (42_message_functions.md): how a message is spelled as commands, what the host reads
from a result port, the functions `encode` and `decode` as the machine computes them, and the spec's closed forms. -/

namespace Sys2Proof.Machine

/-! ### Messages as commands -/

/-- `ENC.MSG b` (30 R61): `PUSH` all bytes but the last, `PUSHL` the last; `END` alone for no byte. -/
def encMsg : List Byte → List Instr
  | [] => [.encEnd]
  | [d] => [.encPushl d]
  | d :: e :: b => .encPush d :: encMsg (e :: b)

/-- `DEC.MSG s` (30 R61). -/
def decMsg : List CharCode → List Instr
  | [] => [.decEnd]
  | [c] => [.decPushl c]
  | c :: e :: s => .decPush c :: decMsg (e :: s)

/-- The second spelling of an encoder message: all `PUSH`, then `END` (30 R61, 42 R120). -/
def encMsgEnd (b : List Byte) : List Instr := b.map .encPush ++ [.encEnd]

/-- The second spelling of a decoder message (30 R61, 42 R120). -/
def decMsgEnd (s : List CharCode) : List Instr := s.map .decPush ++ [.decEnd]

/-- Commands executed one after another (20 R45), stopping at the first that gives no next state. -/
def execAll : List Instr → State → Result
  | [], s => .next s
  | i :: is, s =>
    match exec i s with
    | .next t => execAll is t
    | .fault r => .fault r
    | .refused r => .refused r

/-! ### What the host reads -/

/-- The result of a decoder message (42 R122). -/
inductive DecResult where
  | ok (bytes : List Byte)
  | err (st : Status) (c : CharCode) (pos : Nat)
  deriving DecidableEq, Repr

/-- The texts of the closed messages of a history of `ENC.RES`, `acc` being the characters of the message still open:
a `DONE` closes it (30 R56), a reset makes the host discard it (70 R172). -/
def encTextsFrom : List CharCode → List (Seen EncBeat) → List (List CharCode)
  | _, [] => []
  | acc, .beat (.char c) :: l => encTextsFrom (acc ++ [c]) l
  | acc, .beat (.done _) :: l => acc :: encTextsFrom [] l
  | _, .reset :: l => encTextsFrom [] l

/-- The results of all closed encoder messages, in order (42 R121). -/
def encTexts (l : List (Seen EncBeat)) : List (List CharCode) := encTextsFrom [] l

/-- The characters of the encoder message still open at the end of a history. -/
def encOpenFrom : List CharCode → List (Seen EncBeat) → List CharCode
  | acc, [] => acc
  | acc, .beat (.char c) :: l => encOpenFrom (acc ++ [c]) l
  | _, .beat (.done _) :: l => encOpenFrom [] l
  | _, .reset :: l => encOpenFrom [] l

/-- The result a `DONE` beat gives the bytes before it: they are the result only when the status is `OK` (42 R122); a
`DONE` with any other status voids them (60 R150). -/
def closeDec (acc : List Byte) (st : Status) (c : CharCode) (p : Nat) : DecResult :=
  if st = .ok then .ok acc else .err st c p

/-- The results of the closed messages of a history of `DEC.RES`, `acc` being the bytes of the message still open. -/
def decResultsFrom : List Byte → List (Seen DecBeat) → List DecResult
  | _, [] => []
  | acc, .beat (.byte b) :: l => decResultsFrom (acc ++ [b]) l
  | acc, .beat (.done st c p) :: l => closeDec acc st c p :: decResultsFrom [] l
  | _, .reset :: l => decResultsFrom [] l

/-- The results of all closed decoder messages, in order (42 R122). -/
def decResults (l : List (Seen DecBeat)) : List DecResult := decResultsFrom [] l

/-- The bytes of the decoder message still open at the end of a history (void if it ends in an error, 60 R150). -/
def decOpenFrom : List Byte → List (Seen DecBeat) → List Byte
  | acc, [] => acc
  | acc, .beat (.byte b) :: l => decOpenFrom (acc ++ [b]) l
  | _, .beat (.done _ _ _) :: l => decOpenFrom [] l
  | _, .reset :: l => decOpenFrom [] l

/-! ### `encode` and `decode` as the machine computes them (DESIGN CHOICE, log entry 13) -/

/-- `encode(b)` (42 R121): the text of the message `ENC.MSG b` run from reset; none if there is not exactly one. -/
def encodeMessage (b : List Byte) : Option (List CharCode) :=
  match execAll (encMsg b) State.reset with
  | .next t => match encTexts t.encRes with
    | [text] => some text
    | _ => none
  | .fault _ => none
  | .refused _ => none

/-- `decode(s)` (42 R122): the result of the message `DEC.MSG s` run from reset; none if there is not exactly one. -/
def decodeMessage (s : List CharCode) : Option DecResult :=
  match execAll (decMsg s) State.reset with
  | .next t => match decResults t.decRes with
    | [r] => some r
    | _ => none
  | .fault _ => none
  | .refused _ => none

/-! ### Closed forms (42 R123, R124) -/

/-- `ceil(a / n)` (00 R8). -/
def ceilDiv (a n : Nat) : Nat := (a + n - 1) / n

/-- The bits of a value, most significant first. -/
def bitsOf {w : Nat} (v : BitVec w) : List Bool := (List.range w).map fun i => v.getMsbD i

/-- The number a bit string spells, first bit most significant. -/
def bitsValue (bs : List Bool) : Nat := bs.foldl (fun n b => 2 * n + b.toNat) 0

/-- `n` consecutive pieces of `k` elements from the left. -/
def cut {α : Type} (k : Nat) : Nat → List α → List (List α)
  | 0, _ => []
  | n + 1, l => l.take k :: cut k n (l.drop k)

/-- `encode` by bit strings (42 R123): all bits, filled with zeros to a multiple of 5, cut in fives, looked up. -/
def encodeByBits (b : List Byte) : List CharCode :=
  let bits := b.flatMap bitsOf
  let filled := bits ++ List.replicate ((Config.groupBits - bits.length % Config.groupBits) % Config.groupBits) false
  (cut Config.groupBits (filled.length / Config.groupBits) filled).map fun g => alpha (BitVec.ofNat 5 (bitsValue g))

/-- `encode` block by block (42 R123). -/
def encodeByBlocks (b : List Byte) : List CharCode :=
  (List.range (ceilDiv b.length Config.encBlock)).flatMap fun n =>
    let m := min Config.encBlock (b.length - Config.encBlock * n)
    let acc := (List.range m).foldl
      (fun acc i => acc ||| (b.getD (Config.encBlock * n + i) 0).setWidth 40 <<< (32 - 8 * i)) (0 : Acc)
    (List.range (encGroups (Fin.ofNat 6 m))).map fun j => alpha ((acc >>> (35 - 5 * j) &&& 0x1F#40).setWidth 5)

/-- The first invalid character of a text and its position, counted from `i` (42 R124). -/
def firstInvalidFrom (i : Nat) : List CharCode → Option (CharCode × Nat)
  | [] => none
  | c :: s => match rev c with
    | none => some (c, i)
    | some _ => firstInvalidFrom (i + 1) s

/-- The first invalid character of a text and its 0-based position. -/
def firstInvalid (s : List CharCode) : Option (CharCode × Nat) := firstInvalidFrom 0 s

/-- `REV[c]` of a character known to be valid; 0 stands for an invalid one, which the closed forms never read. -/
def indexOf (c : CharCode) : Index := (rev c).getD 0

/-- `decode` by bit strings (42 R124): all index bits, the whole bytes among them, cut in eights. -/
def decodeByBits (s : List CharCode) : DecResult :=
  match firstInvalid s with
  | some (c, p) => .err .invalidCharacter c p
  | none =>
    let bits := s.flatMap fun c => bitsOf (indexOf c)
    let n := bits.length / Config.byteBits
    .ok ((cut Config.byteBits n (bits.take (Config.byteBits * n))).map fun g => BitVec.ofNat 8 (bitsValue g))

/-- `decode` block by block (42 R124). -/
def decodeByBlocks (s : List CharCode) : DecResult :=
  match firstInvalid s with
  | some (c, p) => .err .invalidCharacter c p
  | none =>
    .ok ((List.range (ceilDiv s.length Config.decBlock)).flatMap fun n =>
      let m := min Config.decBlock (s.length - Config.decBlock * n)
      let acc := (List.range m).foldl
        (fun acc i => acc ||| (indexOf (s.getD (Config.decBlock * n + i) 0)).setWidth 40 <<< (35 - 5 * i)) (0 : Acc)
      (List.range (decBytes (Fin.ofNat 9 m))).map fun k => (acc >>> (32 - 8 * k) &&& 0xFF#40).setWidth 8)

/-! ### Letter case and canonical text -/

/-- An uppercase letter's lowercase code; any other code unchanged (20 R34). -/
def toLower (c : CharCode) : CharCode := if 0x41#8 ≤ c ∧ c ≤ 0x5A#8 then c + 0x20#8 else c

/-- A lowercase letter's uppercase code; any other code unchanged (20 R34). -/
def toUpper (c : CharCode) : CharCode := if 0x61#8 ≤ c ∧ c ≤ 0x7A#8 then c - 0x20#8 else c

/-- Two texts that differ only in the case of letters (42 R128). -/
def sameButCase (s t : List CharCode) : Bool := decide (s.map toLower = t.map toLower)

/-- Text the encoder can produce (00 R9): every character an entry of `ALPHA`, the tail 0, 2, 4, 5 or 7 characters
long, and the bits of the last character below the data zero. -/
def canonicalText (s : List CharCode) : Bool :=
  s.all (fun c => (rev c).isSome && decide (toLower c = c)) &&
  [0, 2, 4, 5, 7].contains (s.length % 8) &&
  decide ((indexOf (s.getLastD 0x61#8)).toNat % 2 ^ (5 * s.length % 8) = 0)

end Sys2Proof.Machine
end

