-- ==== Sys2Proof/Machine/Notation.lean ====
section
/-! DEFINITION. The written notation (30_encoding.md R60, R61): one line of text to the commands it stands for, and a
command to its line of a listing. Text is a list of characters. What the spec does not say of
the notation is the model's (DESIGN CHOICE, log entry 11). -/

namespace Sys2Proof.Machine

/-- What can be wrong with a line of the notation. None of these is a command, so none is a word on a port. -/
inductive NotationError where
  | unknownMnemonic
  | missingOperand
  | badOperand
  | datumOutOfRange (n : Nat)
  | textAfterOperand
  deriving DecidableEq, Repr

/-- Drop leading spaces. -/
def skipSpaces : List Char → List Char
  | [] => []
  | c :: l => if c = ' ' then skipSpaces l else c :: l

/-- Nothing but spaces and a comment is left of the line (`;` starts a comment, 30 R60). -/
def lineEnds (l : List Char) : Bool :=
  match skipSpaces l with
  | [] => true
  | c :: _ => decide (c = ';')

/-- The characters up to a space, `;`, `,` or `]`, and the rest from there. -/
def takeWord : List Char → List Char × List Char
  | [] => ([], [])
  | c :: l =>
    if c = ' ' ∨ c = ';' ∨ c = ',' ∨ c = ']' then ([], c :: l)
    else (c :: (takeWord l).1, (takeWord l).2)

/-- The value of a digit, if it is one in base 16. -/
def hexDigit (c : Char) : Option Nat :=
  if 48 ≤ c.toNat ∧ c.toNat ≤ 57 then some (c.toNat - 48)
  else if 65 ≤ c.toNat ∧ c.toNat ≤ 70 then some (c.toNat - 55)
  else if 97 ≤ c.toNat ∧ c.toNat ≤ 102 then some (c.toNat - 87)
  else none

/-- Read digits in a base, after those already worth `n`. -/
def readDigits (base : Nat) : Nat → List Char → Option Nat
  | n, [] => some n
  | n, c :: l =>
    match hexDigit c with
    | none => none
    | some d => if d < base then readDigits base (base * n + d) l else none

/-- A number in hexadecimal (`0x66`), binary (`0b01100110`) or decimal (00 R8). -/
def readNumber : List Char → Option Nat
  | [] => none
  | [c] => readDigits 10 0 [c]
  | [c, d] => readDigits 10 0 [c, d]
  | a :: b :: c :: l =>
    if a = '0' ∧ b = 'x' then readDigits 16 0 (c :: l)
    else if a = '0' ∧ b = 'b' then readDigits 2 0 (c :: l)
    else readDigits 10 0 (a :: b :: c :: l)

/-- A number as a datum: 0 to 255 (30 R60). -/
def checkDatum (n : Nat) : Except NotationError (BitVec 8) :=
  if datumInRange n then .ok (BitVec.ofNat 8 n) else .error (.datumOutOfRange n)

/-- A character as a datum: its ASCII code (30 R60, 93 G1). -/
def charDatum (c : Char) : Except NotationError (BitVec 8) :=
  if c.toNat < 128 then .ok (BitVec.ofNat 8 c.toNat) else .error .badOperand

/-- A number standing first in a text, and the rest. -/
def readNumberDatum (l : List Char) : Except NotationError (BitVec 8 × List Char) :=
  match readNumber (takeWord l).1 with
  | none => .error .badOperand
  | some n => (checkDatum n).map fun v => (v, (takeWord l).2)

/-- A `<datum>`: a number, or one character in single quotes (30 R60). -/
def readDatum (l : List Char) : Except NotationError (BitVec 8 × List Char) :=
  match l with
  | q :: c :: r :: rest =>
    if q = '\'' ∧ r = '\'' then (charDatum c).map fun v => (v, rest) else readNumberDatum l
  | _ => readNumberDatum l

/-- The rest of a quoted string, after its opening quote (30 R61). -/
def readQuoted : List Char → Except NotationError (List (BitVec 8) × List Char)
  | [] => .error .badOperand
  | c :: l =>
    if c = '"' then .ok ([], l)
    else match charDatum c, readQuoted l with
      | .ok v, .ok (vs, rest) => .ok (v :: vs, rest)
      | .error e, _ => .error e
      | _, .error e => .error e

/-- The rest of a list of data after its first datum: `, datum` again or `]` (30 R61). `fuel` bounds the data. -/
def readListTail : Nat → List Char → Except NotationError (List (BitVec 8) × List Char)
  | 0, _ => .error .badOperand
  | fuel + 1, l =>
    match skipSpaces l with
    | ']' :: rest => .ok ([], rest)
    | ',' :: rest =>
      match readDatum (skipSpaces rest) with
      | .error e => .error e
      | .ok (v, rest') =>
        match readListTail fuel rest' with
        | .error e => .error e
        | .ok (vs, rest'') => .ok (v :: vs, rest'')
    | _ => .error .badOperand

/-- The operand of a pseudo-command: a quoted string or a list `[0x66, 0x6F]` (30 R61). -/
def readSequence (l : List Char) : Except NotationError (List (BitVec 8) × List Char) :=
  match l with
  | '"' :: rest => readQuoted rest
  | '[' :: rest =>
    match skipSpaces rest with
    | ']' :: rest' => .ok ([], rest')
    | rest' =>
      match readDatum rest' with
      | .error e => .error e
      | .ok (v, rest'') =>
        match readListTail l.length rest'' with
        | .error e => .error e
        | .ok (vs, rest''') => .ok (v :: vs, rest''')
  | _ => .error .badOperand

/-- A letter in capitals: mnemonics are not case-sensitive (30 R60). -/
def capital (c : Char) : Char := if 97 ≤ c.toNat ∧ c.toNat ≤ 122 then Char.ofNat (c.toNat - 32) else c

/-- The eight written names: six commands (30 R60) and two pseudo-commands (30 R61). -/
inductive Written where
  | encPush | encPushl | encEnd | decPush | decPushl | decEnd | encMsg | decMsg
  deriving DecidableEq, Repr

/-- How a name is spelled (30 R60, R61). -/
def Written.spelling : Written → List Char
  | .encPush => ['E', 'N', 'C', '.', 'P', 'U', 'S', 'H']
  | .encPushl => ['E', 'N', 'C', '.', 'P', 'U', 'S', 'H', 'L']
  | .encEnd => ['E', 'N', 'C', '.', 'E', 'N', 'D']
  | .decPush => ['D', 'E', 'C', '.', 'P', 'U', 'S', 'H']
  | .decPushl => ['D', 'E', 'C', '.', 'P', 'U', 'S', 'H', 'L']
  | .decEnd => ['D', 'E', 'C', '.', 'E', 'N', 'D']
  | .encMsg => ['E', 'N', 'C', '.', 'M', 'S', 'G']
  | .decMsg => ['D', 'E', 'C', '.', 'M', 'S', 'G']

/-- All written names. -/
def Written.all : List Written :=
  [.encPush, .encPushl, .encEnd, .decPush, .decPushl, .decEnd, .encMsg, .decMsg]

/-- The name a word spells, capitals or not. -/
def readName (l : List Char) : Option Written := Written.all.find? fun n => decide (n.spelling = l.map capital)

/-- Commands whose operand has been read, if the line ends there. -/
def finishLine (is : List Instr) (rest : List Char) : Except NotationError (List Instr) :=
  if lineEnds rest then .ok is else .error .textAfterOperand

/-- A command of one datum. -/
def withDatum (f : BitVec 8 → Instr) (rest : List Char) : Except NotationError (List Instr) :=
  if lineEnds rest then .error .missingOperand
  else match readDatum (skipSpaces rest) with
    | .error e => .error e
    | .ok (v, rest') => finishLine [f v] rest'

/-- A pseudo-command and its expansion. -/
def withSequence (f : List (BitVec 8) → List Instr) (rest : List Char) : Except NotationError (List Instr) :=
  if lineEnds rest then .error .missingOperand
  else match readSequence (skipSpaces rest) with
    | .error e => .error e
    | .ok (vs, rest') => finishLine (f vs) rest'

/-- One line of the notation: the commands it stands for (none for a blank line or a comment). -/
def assembleLine (line : List Char) : Except NotationError (List Instr) :=
  if lineEnds line then .ok []
  else
    let word := takeWord (skipSpaces line)
    match readName word.1 with
    | none => .error .unknownMnemonic
    | some .encPush => withDatum .encPush word.2
    | some .encPushl => withDatum .encPushl word.2
    | some .encEnd => finishLine [.encEnd] word.2
    | some .decPush => withDatum .decPush word.2
    | some .decPushl => withDatum .decPushl word.2
    | some .decEnd => finishLine [.decEnd] word.2
    | some .encMsg => withSequence Machine.encMsg word.2
    | some .decMsg => withSequence Machine.decMsg word.2

/-- A digit in base 16, capitals. -/
def hexChar (n : Nat) : Char := if n < 10 then Char.ofNat (48 + n) else Char.ofNat (55 + n)

/-- The `k` lowest hexadecimal digits of a number. -/
def hexDigits : Nat → Nat → List Char
  | 0, _ => []
  | k + 1, n => hexDigits k (n / 16) ++ [hexChar (n % 16)]

/-- A command's written name. -/
def Instr.written : Instr → Written
  | .encPush _ => .encPush
  | .encPushl _ => .encPushl
  | .encEnd => .encEnd
  | .decPush _ => .decPush
  | .decPushl _ => .decPushl
  | .decEnd => .decEnd

/-- A command written out, its datum in hexadecimal (30 R60). -/
def writeCommand (i : Instr) : List Char :=
  match i.datum with
  | none => (Instr.written i).spelling
  | some v => (Instr.written i).spelling ++ [' ', '0', 'x'] ++ hexDigits 2 v.toNat

/-- A line of a listing: the command word in three hexadecimal digits, then the command (30 R60). -/
def listingLine (i : Instr) : List Char := hexDigits 3 (encode i).toNat ++ [' ', ' '] ++ writeCommand i

end Sys2Proof.Machine
end

