-- ==== Sys2Proof/Safety.lean ====
section
/-! DEFINITION. What claims are stated in: the invariants of 10_state.md R23, message boundaries (R24), which beats a
port can carry, and when a run of a unit is complete (70_reset_and_hazards.md R183). -/

namespace Sys2Proof.Machine

/-- I-E2 (10 R23): the bits of `ENC.ACC` below the bytes placed so far are zero. -/
abbrev encTailZero (s : State) : Prop := s.encAcc.toNat % 2 ^ (40 - 8 * s.encPos.val) = 0

/-- I-D2 (10 R23): the bits of `DEC.ACC` below the indices placed so far are zero. -/
abbrev decTailZero (s : State) : Prop := s.decAcc.toNat % 2 ^ (40 - 5 * s.decPos.val) = 0

/-- I-D3 (10 R23): outside FAULTED the block position is the character position modulo 8, and no error is recorded. -/
abbrev decCounting (s : State) : Prop :=
  s.decErr = false → s.decIdx % 8 = s.decPos.val ∧ s.decErrChar = 0 ∧ s.decErrPos = 0

/-- I-D4 (10 R23): in FAULTED the block is thrown away and the recorded character is invalid and stood at `DEC.IDX`. -/
abbrev decFaulted (s : State) : Prop :=
  s.decErr = true → s.decAcc = 0 ∧ s.decPos = 0 ∧ rev s.decErrChar = none ∧ s.decErrPos = s.decIdx

/-- The invariants of 10 R23, both units. I-E1 and I-D1 are the types of `ENC.POS` and `DEC.POS`. -/
abbrev UnitInv (s : State) : Prop := encTailZero s ∧ decTailZero s ∧ decCounting s ∧ decFaulted s

/-- Every register of the encoder holds its reset value (10 R24). -/
abbrev encAtBoundary (s : State) : Prop := s.encAcc = 0 ∧ s.encPos = 0

/-- Every register of the decoder holds its reset value (10 R24). -/
abbrev decAtBoundary (s : State) : Prop :=
  s.decAcc = 0 ∧ s.decPos = 0 ∧ s.decIdx = 0 ∧ s.decErr = false ∧ s.decErrChar = 0 ∧ s.decErrPos = 0

/-- Two states whose encoder registers agree. -/
abbrev sameEncRegs (s t : State) : Prop := t.encAcc = s.encAcc ∧ t.encPos = s.encPos

/-- Two states whose decoder registers agree. -/
abbrev sameDecRegs (s t : State) : Prop :=
  t.decAcc = s.decAcc ∧ t.decPos = s.decPos ∧ t.decIdx = s.decIdx ∧ t.decErr = s.decErr ∧
  t.decErrChar = s.decErrChar ∧ t.decErrPos = s.decErrPos

/-- The beats of a history of a port, without the host's marks of resets (log entry 5). -/
def beatsSeen {β : Type} : List (Seen β) → List β
  | [] => []
  | .beat b :: l => b :: beatsSeen l
  | .reset :: l => beatsSeen l

/-- From `s` to `t` exactly these beats were added to `ENC.RES`. -/
abbrev encEmits (s t : State) (bs : List EncBeat) : Prop := t.encRes = s.encRes ++ bs.map Seen.beat

/-- From `s` to `t` exactly these beats were added to `DEC.RES`. -/
abbrev decEmits (s t : State) (bs : List DecBeat) : Prop := t.decRes = s.decRes ++ bs.map Seen.beat

/-- The beats the encoder emits (30 R56, 40 R78): a character of `ALPHA`, or `DONE(OK)`. -/
def EncBeat.legal : EncBeat → Bool
  | .char c => (List.finRange 32).any fun i => decide (alpha (BitVec.ofFin i) = c)
  | .done st => decide (st = .ok)

/-- The beats the decoder emits (30 R57, 93 U5): a byte, `DONE(OK, 0, 0)`, or `DONE(InvalidCharacter, c, p)` with `c`
no character of the alphabet. -/
def DecBeat.legal : DecBeat → Bool
  | .byte _ => true
  | .done .ok c p => decide (c = 0) && decide (p = 0)
  | .done .invalidCharacter c _ => isInvalid c
  | .done .invalidLength _ _ => false
  | .done .reserved _ _ => false

/-- A place of a history of `ENC.RES` that the spec allows: a legal beat, or a reset. -/
def encSeenLegal : Seen EncBeat → Bool
  | .beat b => b.legal
  | .reset => true

/-- A place of a history of `DEC.RES` that the spec allows. -/
def decSeenLegal : Seen DecBeat → Bool
  | .beat b => b.legal
  | .reset => true

/-- What holds of the two port histories: only beats the spec allows; the characters of the open encoder message come
from full blocks, eight each (40 R73); the bytes of the open decoder message are exactly `5 * floor(IDX / 8)`, from the
full blocks so far (41 R94, 60 R150). -/
abbrev PortInv (s : State) : Prop :=
  s.encRes.all encSeenLegal = true ∧ s.decRes.all decSeenLegal = true ∧
  (encOpenFrom [] s.encRes).length % 8 = 0 ∧ (decOpenFrom [] s.decRes).length = 5 * (s.decIdx / 8)

/-- The messages a decoder with an `IDXW`-bit character counter admits (10 R16, 93 U2): shorter than `2 ^ IDXW`. -/
def fitsCounter (idxw : Nat) (cs : List CharCode) : Bool := decide (cs.length < 2 ^ idxw)

/-- Is this run of a unit complete (70 R183): its last command is a `PUSHL` or an `END`, or it has none since the last
reset? `done` is the answer for the moves before. -/
def runCompleteFrom (p : Port) : Bool → List HostMove → Bool
  | done, [] => done
  | _, .rst :: ms => runCompleteFrom p true ms
  | done, .word q w :: ms =>
    if q = p then
      match decode q w with
      | .ok i => runCompleteFrom p i.endsMessage ms
      | .error _ => runCompleteFrom p false ms
    else runCompleteFrom p done ms

/-- A run of a unit, from a message boundary, that is complete (70 R183). -/
def runComplete (p : Port) (ms : List HostMove) : Bool := runCompleteFrom p true ms

end Sys2Proof.Machine
end

