-- ==== Sys2Proof/Certificates/Slice0/Obligations.lean ====
section
/-! DEFINITION. The statements for the provers. Each docstring names the rule or section of spec/ it formalises. -/

open Sys2Proof Sys2Proof.Machine

/-! ### Command words -/

/-- 30 R50 to R53: encoding a command and decoding the word on the command's port gives the command back. -/
def Obligations.DecodeEncodeAgree : Prop :=
  ∀ i : Instr, i.wf = true → decode i.port (encode i) = .ok i

/-- 30 R52: the opcode table names exactly what the decoder reads, no two rows of a port overlap, and 256 words of a
port are `PUSH`, 256 `PUSHL`, 1 `END` and 511 reserved. -/
def Obligations.OpcodeTableNamesCommands : Prop :=
  (∀ p w i, decode p w = .ok i ↔ (opcodeRow i).fits p w = true ∧ ∀ d ∈ i.datum, dataField w = d) ∧
  (∀ p w, opcodeTable.countP (fun r => r.fits p w) ≤ 1) ∧
  (∀ p, ((List.range 1024).countP fun n => match decode p (BitVec.ofNat 10 n) with
      | .ok i => i.datum.isSome && !i.endsMessage
      | .error _ => false) = 256 ∧
    ((List.range 1024).countP fun n => match decode p (BitVec.ofNat 10 n) with
      | .ok i => i.datum.isSome && i.endsMessage
      | .error _ => false) = 256 ∧
    ((List.range 1024).countP fun n => match decode p (BitVec.ofNat 10 n) with
      | .ok i => i.datum.isNone
      | .error _ => false) = 1 ∧
    ((List.range 1024).countP fun n => match decode p (BitVec.ofNat 10 n) with
      | .ok _ => false
      | .error _ => true) = 511)

/-- 30 R54, 60 R151: on either port exactly the words with `op = 0b11` and the words with `op = 0b10` and `data` not 0
name no command, and a step that meets one is refused by name; the admission check refuses exactly these words. -/
def Obligations.ReservedWordsAreRefused : Prop :=
  ∀ (s : State) (p : Port) (w : CmdWord) (ms : List HostMove), s.pending = .word p w :: ms →
    ((w.toNat / 256 = 3 ∨ (w.toNat / 256 = 2 ∧ w.toNat % 256 ≠ 0)) ↔
      ∃ why, step s = .refused (.reservedCommandWord p why w)) ∧
    (CmdWord.admissible w = true ↔ ∃ i, decode p w = .ok i ∧ encode i = w ∧ i.port = p)

/-- 30 R52: words written out from the table. -/
def Obligations.WordsFromTheTable : Prop :=
  decode .enc 0b0001100110#10 = .ok (.encPush 0x66#8) ∧ decode .enc 0b0101110010#10 = .ok (.encPushl 0x72#8) ∧
  decode .enc 0b1000000000#10 = .ok .encEnd ∧ decode .dec 0b0000111101#10 = .ok (.decPush 0x3D#8) ∧
  decode .dec 0b0101111001#10 = .ok (.decPushl 0x79#8) ∧ decode .dec 0b1000000000#10 = .ok .decEnd

/-! ### Steps -/

/-- 20 R45, 10 R19: when the next word on a port decodes to a well-formed command, the step takes the word off the
host's moves and is the execution of that command. -/
def Obligations.StepRunsPresentedCommand : Prop :=
  ∀ (s : State) (p : Port) (w : CmdWord) (ms : List HostMove) (i : Instr),
    s.pending = .word p w :: ms → decode p w = .ok i → i.wf = true → step s = exec i { s with pending := ms }

/-- 70 R170: `RST` puts every register of both units at its reset value from any state and emits no beat, and nothing
but `RST` and a command changes a register. -/
def Obligations.RstClearsEveryRegister : Prop :=
  (∀ (s : State) (ms : List HostMove), s.pending = .rst :: ms →
    ∃ t : State, step s = .next t ∧ t.encAcc = 0 ∧ t.encPos = 0 ∧ t.decAcc = 0 ∧ t.decPos = 0 ∧ t.decIdx = 0 ∧
      t.decErr = false ∧ t.decErrChar = 0 ∧ t.decErrPos = 0 ∧ t.pending = ms ∧
      beatsSeen t.encRes = beatsSeen s.encRes ∧ beatsSeen t.decRes = beatsSeen s.decRes) ∧
  (∀ s t : State, step s = .next t → ¬ (sameEncRegs s t ∧ sameDecRegs s t) →
    ∃ m ms, s.pending = m :: ms ∧ (m = .rst ∨ ∃ p w i, m = .word p w ∧ decode p w = .ok i))

/-- 70 R171: every register of the block is 0 after reset, and the registers of a unit that has just ended a message
are those of a unit just reset. -/
def Obligations.ResetValuesAreZero : Prop :=
  State.reset.encAcc = 0 ∧ State.reset.encPos = 0 ∧ State.reset.decAcc = 0 ∧ State.reset.decPos = 0 ∧
  State.reset.decIdx = 0 ∧ State.reset.decErr = false ∧ State.reset.decErrChar = 0 ∧ State.reset.decErrPos = 0 ∧
  ∀ i s, i.endsMessage = true → ∃ t : State, exec i s = .next t ∧
    (i.port = .enc → sameEncRegs State.reset t) ∧ (i.port = .dec → sameDecRegs State.reset t)

/-- 20 R45 and the run of a machine: as many steps as there are moves make the moves, in the order presented, and
leave the later moves pending. -/
def Obligations.StepsMakeTheMoves : Prop :=
  ∀ (s : State) (ms rest : List HostMove),
    Host.Core.run Sys2Proof.core ms.length { s with pending := ms ++ rest } = runMoves ms { s with pending := rest }

/-- 93 U1, 70 R182: the admission check admits exactly the runs that go on to their end: a run is refused for a
reserved word and for nothing else, and never faults. -/
def Obligations.AdmissibleRunsAreNeverRefused : Prop :=
  ∀ (s : State) (ms : List HostMove), admissible ms = true ↔ ∃ t : State, runMoves ms s = .next t

/-! ### The encoder -/

/-- 40 R74: the word and the whole effect of `ENC.PUSH`: what is not named in the next state is unchanged. -/
def Obligations.EncPushEffect : Prop :=
  ∀ (d : Byte) (s : State),
    decode .enc (0#2 ++ d) = .ok (.encPush d) ∧
    exec (.encPush d) s = .next (
      let acc1 : Acc := s.encAcc ||| d.setWidth 40 <<< (32 - 8 * s.encPos.val)
      if s.encPos.val = 4 then
        { s with
          encAcc := 0, encPos := 0
          encRes := s.encRes ++ (List.range 8).map fun j =>
            .beat (.char (alpha ((acc1 >>> (35 - 5 * j) &&& 0x1F#40).setWidth 5))) }
      else { s with encAcc := acc1, encPos := s.encPos + 1 })

/-- 40 R75: the word and the whole effect of `ENC.PUSHL`. -/
def Obligations.EncPushlEffect : Prop :=
  ∀ (d : Byte) (s : State),
    decode .enc (1#2 ++ d) = .ok (.encPushl d) ∧
    exec (.encPushl d) s = .next (
      let acc1 : Acc := s.encAcc ||| d.setWidth 40 <<< (32 - 8 * s.encPos.val)
      { s with
        encAcc := 0, encPos := 0
        encRes := s.encRes ++ (List.range ([0, 2, 4, 5, 7, 8].getD (s.encPos.val + 1) 0)).map (fun j =>
          .beat (.char (alpha ((acc1 >>> (35 - 5 * j) &&& 0x1F#40).setWidth 5)))) ++ [.beat (.done .ok)] })

/-- 40 R76: the word and the whole effect of `ENC.END`. -/
def Obligations.EncEndEffect : Prop :=
  ∀ s : State,
    decode .enc 0x200#10 = .ok .encEnd ∧
    exec .encEnd s = .next
      { s with
        encAcc := 0, encPos := 0
        encRes := s.encRes ++ (List.range ([0, 2, 4, 5, 7, 8].getD s.encPos.val 0)).map (fun j =>
          .beat (.char (alpha ((s.encAcc >>> (35 - 5 * j) &&& 0x1F#40).setWidth 5)))) ++ [.beat (.done .ok)] }

/-- 40 R77: the encoder never fails: every command of it runs in every state, touches no flag, and emits only
characters of the alphabet, all below 0x80, and `DONE(OK)`. -/
def Obligations.EncoderNeverFails : Prop :=
  ∀ (i : Instr) (s : State), i.port = .enc →
    ∃ t bs, exec i s = .next t ∧ t.decErr = s.decErr ∧ encEmits s t bs ∧
      ∀ b ∈ bs, b = .done .ok ∨ ∃ k, b = .char (alpha k) ∧ (alpha k).toNat < 0x80

/-- 40 R82, which the spec derives: an encoder command depends on the encoder's two registers alone and changes
nothing but them and `ENC.RES`. -/
def Obligations.EncoderFrame : Prop :=
  ∀ (i : Instr) (s u : State), i.port = .enc → sameEncRegs s u →
    ∃ t v bs, exec i s = .next t ∧ exec i u = .next v ∧ sameEncRegs t v ∧
      t.encRes = s.encRes ++ bs ∧ v.encRes = u.encRes ++ bs ∧
      sameDecRegs s t ∧ t.decRes = s.decRes ∧ t.pending = s.pending

/-- 40 R79, 41 R102, which the spec derives: `PUSHL` is `PUSH` followed by `END`, in every state of either unit. -/
def Obligations.PushlIsPushThenEnd : Prop :=
  (∀ (d : Byte) (s : State), exec (.encPushl d) s = execAll [.encPush d, .encEnd] s) ∧
  (∀ (c : CharCode) (s : State), exec (.decPushl c) s = execAll [.decPush c, .decEnd] s)

/-! ### Lanes and arithmetic -/

/-- 20 R36, R37: byte lane `i` is bits `[39-8i:32-8i]` and group lane `j` bits `[39-5j:35-5j]`, of either accumulator:
a placement into an empty lane writes exactly that lane, and groups and bytes are read from exactly these lanes. -/
def Obligations.LanesOfTheAccumulators : Prop :=
  (∀ (acc : Acc) (i : Fin 5) (d : Byte), acc.extractLsb' (32 - 8 * i.val) 8 = 0 →
    (encPlace acc i d).extractLsb' (32 - 8 * i.val) 8 = d ∧
    ∀ k, (k < 32 - 8 * i.val ∨ 39 - 8 * i.val < k) → (encPlace acc i d).getLsbD k = acc.getLsbD k) ∧
  (∀ (acc : Acc) (j : Fin 8) (v : Index), acc.extractLsb' (35 - 5 * j.val) 5 = 0 →
    (decPlace acc j v).extractLsb' (35 - 5 * j.val) 5 = v ∧
    ∀ k, (k < 35 - 5 * j.val ∨ 39 - 5 * j.val < k) → (decPlace acc j v).getLsbD k = acc.getLsbD k) ∧
  (∀ (acc : Acc) (j : Fin 8), encGroup acc j.val = acc.extractLsb' (35 - 5 * j.val) 5) ∧
  (∀ (acc : Acc) (k : Fin 5), decByte acc k.val = acc.extractLsb' (32 - 8 * k.val) 8)

/-- 40 R71, 41 R92: in a state that meets the invariants the lane of the next element is empty, so the placement is an
addition. -/
def Obligations.PlacementIsAddition : Prop :=
  (∀ (acc : Acc) (i : Fin 5) (d : Byte), encPlace acc i d = acc ||| d.setWidth 40 <<< (32 - 8 * i.val)) ∧
  (∀ (acc : Acc) (i : Fin 8) (v : Index), decPlace acc i v = acc ||| v.setWidth 40 <<< (35 - 5 * i.val)) ∧
  (∀ (s : State) (d : Byte), encTailZero s →
    s.encAcc.extractLsb' (32 - 8 * s.encPos.val) 8 = 0 ∧
    (encPlace s.encAcc s.encPos d).toNat = s.encAcc.toNat + d.toNat * 2 ^ (32 - 8 * s.encPos.val)) ∧
  (∀ (s : State) (v : Index), decTailZero s →
    s.decAcc.extractLsb' (35 - 5 * s.decPos.val) 5 = 0 ∧
    (decPlace s.decAcc s.decPos v).toNat = s.decAcc.toNat + v.toNat * 2 ^ (35 - 5 * s.decPos.val))

/-- 40 R81, 41 R109, which the spec derives: no accumulator overflows: an operand is the element times its lane's
weight with no bit lost, the largest ones are `0xFF00000000` and `0xF800000000`, and the lanes are disjoint and cover
the 40 bits. -/
def Obligations.AccumulatorsNeverOverflow : Prop :=
  (∀ (i : Fin 5) (d : Byte), (encOperand i d).toNat = d.toNat * 2 ^ (32 - 8 * i.val) ∧
    (encOperand i d).toNat ≤ 0xFF00000000) ∧
  encOperand 0 0xFF#8 = 0xFF00000000#40 ∧
  (∀ (i j : Fin 5) (d e : Byte), i ≠ j → encOperand i d &&& encOperand j e = 0) ∧
  (List.finRange 5).foldl (fun acc i => encPlace acc i 0xFF#8) 0 = 0xFFFFFFFFFF#40 ∧
  (∀ (i : Fin 8) (v : Index), (decOperand i v).toNat = v.toNat * 2 ^ (35 - 5 * i.val) ∧
    (decOperand i v).toNat ≤ 0xF800000000) ∧
  decOperand 0 0x1F#5 = 0xF800000000#40 ∧
  (∀ (i j : Fin 8) (v w : Index), i ≠ j → decOperand i v &&& decOperand j w = 0) ∧
  (List.finRange 8).foldl (fun acc i => decPlace acc i 0x1F#5) 0 = 0xFFFFFFFFFF#40

/-! ### The tables -/

/-- 20 R31, R32: `ALPHA` in closed form, no character twice, every code below 0x80. -/
def Obligations.AlphabetTable : Prop :=
  (∀ i : Index, (alpha i).toNat = if i.toNat ≤ 25 then 0x61 + i.toNat else 0x32 + (i.toNat - 26)) ∧
  (∀ i j : Index, alpha i = alpha j → i = j) ∧
  ∀ i : Index, (alpha i).toNat < 0x80

/-- 20 R33: `REV` in closed form over all 256 codes, with 58 valid and 198 invalid entries. -/
def Obligations.ReverseTable : Prop :=
  (∀ c : CharCode, (rev c).map BitVec.toNat =
    if 0x41 ≤ c.toNat ∧ c.toNat ≤ 0x5A then some (c.toNat - 0x41)
    else if 0x61 ≤ c.toNat ∧ c.toNat ≤ 0x7A then some (c.toNat - 0x61)
    else if 0x32 ≤ c.toNat ∧ c.toNat ≤ 0x37 then some (c.toNat - 0x32 + 26)
    else none) ∧
  (List.range 256).countP (fun n => (rev (BitVec.ofNat 8 n)).isSome) = 58 ∧
  (List.range 256).countP (fun n => (rev (BitVec.ofNat 8 n)).isNone) = 198

/-- 20 R34, which the spec derives from R31 and R33: `REV` inverts `ALPHA` and ignores the case of letters, and so is
not injective. -/
def Obligations.ReverseInvertsAlphabet : Prop :=
  (∀ i : Index, rev (alpha i) = some i) ∧
  (∀ k : Fin 26, rev (BitVec.ofNat 8 (0x41 + k.val)) = some (BitVec.ofNat 5 k.val) ∧
    rev (BitVec.ofNat 8 (0x61 + k.val)) = some (BitVec.ofNat 5 k.val)) ∧
  ∃ c d, c ≠ d ∧ (rev c).isSome = true ∧ rev c = rev d

/-- 40 R70, 41 R90, whose entries for 0 the spec derives: `ENC_GROUPS` and `DEC_BYTES` entry by entry; they are
`ceil(8n / 5)` and `floor(5n / 8)`; the zero bits that fill the last group and the leftover bits not emitted. -/
def Obligations.CountTables : Prop :=
  [0, 1, 2, 3, 4, 5].map encGroups = [0, 2, 4, 5, 7, 8] ∧
  (∀ n : Fin 6, encGroups n = ceilDiv (8 * n.val) 5 ∧ 8 * n.val ≤ 5 * encGroups n) ∧
  [0, 1, 2, 3, 4, 5].map (fun n => 5 * encGroups n - 8 * n.val) = [0, 2, 4, 1, 3, 0] ∧
  [0, 1, 2, 3, 4, 5, 6, 7, 8].map decBytes = [0, 0, 1, 1, 2, 3, 3, 4, 5] ∧
  (∀ n : Fin 9, decBytes n = 5 * n.val / 8) ∧
  [0, 1, 2, 3, 4, 5, 6, 7, 8].map (fun n => 5 * n.val - 8 * decBytes n) = [0, 5, 2, 7, 4, 1, 6, 3, 0]

/-! ### The decoder -/

/-- 41 R95: the word and the whole effect of `DEC.PUSH`, in its four branches. -/
def Obligations.DecPushEffect : Prop :=
  ∀ (c : CharCode) (s : State),
    decode .dec (0#2 ++ c) = .ok (.decPush c) ∧
    exec (.decPush c) s = .next (
      if s.decErr = true then s
      else match rev c with
        | none => { s with decErr := true, decErrChar := c, decErrPos := s.decIdx, decAcc := 0, decPos := 0 }
        | some v =>
          let acc1 : Acc := s.decAcc ||| v.setWidth 40 <<< (35 - 5 * s.decPos.val)
          if s.decPos.val = 7 then
            { s with
              decAcc := 0, decPos := 0, decIdx := s.decIdx + 1
              decRes := s.decRes ++ (List.range 5).map fun k =>
                .beat (.byte ((acc1 >>> (32 - 8 * k) &&& 0xFF#40).setWidth 8)) }
          else { s with decAcc := acc1, decPos := s.decPos + 1, decIdx := s.decIdx + 1 })

/-- 41 R96: the word and the whole effect of `DEC.PUSHL`: three kinds of beats, and all six registers back to 0. -/
def Obligations.DecPushlEffect : Prop :=
  ∀ (c : CharCode) (s : State),
    decode .dec (1#2 ++ c) = .ok (.decPushl c) ∧
    exec (.decPushl c) s = .next
      { s with
        decAcc := 0, decPos := 0, decIdx := 0, decErr := false, decErrChar := 0, decErrPos := 0
        decRes := s.decRes ++
          if s.decErr = true then [.beat (.done .invalidCharacter s.decErrChar s.decErrPos)]
          else match rev c with
            | none => [.beat (.done .invalidCharacter c s.decIdx)]
            | some v =>
              (List.range ([0, 0, 1, 1, 2, 3, 3, 4, 5].getD (s.decPos.val + 1) 0)).map (fun k =>
                .beat (.byte (((s.decAcc ||| v.setWidth 40 <<< (35 - 5 * s.decPos.val)) >>> (32 - 8 * k) &&&
                  0xFF#40).setWidth 8))) ++ [.beat (.done .ok 0 0)] }

/-- 41 R97: the word and the whole effect of `DEC.END`. -/
def Obligations.DecEndEffect : Prop :=
  ∀ s : State,
    decode .dec 0x200#10 = .ok .decEnd ∧
    exec .decEnd s = .next
      { s with
        decAcc := 0, decPos := 0, decIdx := 0, decErr := false, decErrChar := 0, decErrPos := 0
        decRes := s.decRes ++
          if s.decErr = true then [.beat (.done .invalidCharacter s.decErrChar s.decErrPos)]
          else (List.range ([0, 0, 1, 1, 2, 3, 3, 4, 5].getD s.decPos.val 0)).map (fun k =>
            .beat (.byte ((s.decAcc >>> (32 - 8 * k) &&& 0xFF#40).setWidth 8))) ++ [.beat (.done .ok 0 0)] }

/-- 41 R107, which the spec derives: a decoder command depends on the decoder's six registers alone and changes
nothing but them and `DEC.RES`. -/
def Obligations.DecoderFrame : Prop :=
  ∀ (i : Instr) (s u : State), i.port = .dec → sameDecRegs s u →
    ∃ t v bs, exec i s = .next t ∧ exec i u = .next v ∧ sameDecRegs t v ∧
      t.decRes = s.decRes ++ bs ∧ v.decRes = u.decRes ++ bs ∧
      sameEncRegs s t ∧ t.encRes = s.encRes ∧ t.pending = s.pending

/-- 41 R98, R99: a last block of one character is accepted, with no byte and `DONE(OK)`, and the message of one valid
character is not an error; the leftover bits of a partial last block have no effect: accumulators that agree in the
bytes to be emitted end the message in the same way, with `END` and with `PUSHL`, so `mz` decodes as `my` does. -/
def Obligations.TailsAndLeftoverBits : Prop :=
  (∀ (s : State) (c : CharCode), s.decErr = false → s.decPos = 0 → (rev c).isSome = true →
    ∃ t : State, exec (.decPushl c) s = .next t ∧ decEmits s t [.done .ok 0 0]) ∧
  (∀ s : State, s.decErr = false → s.decPos = 1 →
    ∃ t : State, exec .decEnd s = .next t ∧ decEmits s t [.done .ok 0 0]) ∧
  (∀ c : CharCode, (rev c).isSome = true → decodeMessage [c] = some (.ok [])) ∧
  decodeMessage [0x3D#8] = some (.err .invalidCharacter 0x3D#8 0) ∧
  (∀ (s : State) (acc : Acc), s.decErr = false →
    acc >>> (40 - 8 * decBytes s.decPos.castSucc) = s.decAcc >>> (40 - 8 * decBytes s.decPos.castSucc) →
    ∃ t : State, exec .decEnd s = .next t ∧ exec .decEnd { s with decAcc := acc } = .next t ∧
      t.decRes.getLast? = some (.beat (.done .ok 0 0))) ∧
  (∀ (s : State) (acc : Acc) (c d : CharCode) (v w : Index), s.decErr = false → rev c = some v → rev d = some w →
    decPlace acc s.decPos w >>> (40 - 8 * decBytes s.decPos.succ) =
      decPlace s.decAcc s.decPos v >>> (40 - 8 * decBytes s.decPos.succ) →
    ∃ t : State, exec (.decPushl c) s = .next t ∧ exec (.decPushl d) { s with decAcc := acc } = .next t ∧
      t.decRes.getLast? = some (.beat (.done .ok 0 0))) ∧
  [1, 2, 3, 4, 5, 6, 7].map (fun n => 5 * n.val - 8 * decBytes n) = [5, 2, 7, 4, 1, 6, 3] ∧
  decodeMessage [0x6D#8, 0x7A#8] = some (.ok [0x66#8]) ∧ decodeMessage [0x6D#8, 0x79#8] = some (.ok [0x66#8])

/-- 40 R80, 41 R103, which the spec derives: how many characters each encoder command emits at each position, and how
many bytes each decoder command for a valid character outside FAULTED, with `DONE(OK)` after them exactly when the
command ends the message; in the other cases a decoder `PUSH` emits nothing and the other two one
`DONE(InvalidCharacter, ..)`. At most 9 and 6 beats. -/
def Obligations.BeatsPerCommand : Prop :=
  (∀ (i : Instr) (s : State), i.port = .enc →
      ∃ (t : State) (cs : List CharCode), exec i s = .next t ∧
        encEmits s t (cs.map .char ++ if i.endsMessage then [.done .ok] else []) ∧
        cs.length = (match i with
          | .encPush _ => [0, 0, 0, 0, 8]
          | .encPushl _ => [2, 4, 5, 7, 8]
          | _ => [0, 2, 4, 5, 7]).getD s.encPos.val 0 ∧
        t.encRes.length ≤ s.encRes.length + 9) ∧
  (∀ (i : Instr) (s : State), i.port = .dec →
      ∃ t bs, exec i s = .next t ∧ decEmits s t bs ∧ bs.length ≤ 6 ∧
        if s.decErr = false ∧ ∀ c ∈ i.datum, (rev c).isSome = true then
          ∃ vs : List Byte, bs = vs.map .byte ++ (if i.endsMessage then [.done .ok 0 0] else []) ∧
            vs.length = (match i with
              | .decPush _ => [0, 0, 0, 0, 0, 0, 0, 5]
              | .decPushl _ => [0, 1, 1, 2, 3, 3, 4, 5]
              | _ => [0, 0, 1, 1, 2, 3, 3, 4]).getD s.decPos.val 0
        else if i.endsMessage = true then ∃ c p, bs = [.done .invalidCharacter c p]
        else bs = [])

/-! ### The exception -/

/-- 60 R146: the trap entry in `DEC.PUSH`, and entry and return in one command in `DEC.PUSHL`, registers straight to
their reset values; the encoder and everything else unchanged. The trap is precise: the characters before the first
invalid one have had their whole effect, it is the one recorded, and it and those after it have no other effect. -/
def Obligations.TrapEntryRecordsTheError : Prop :=
  (∀ (s : State) (cs : List CharCode) (c : CharCode) (p : Nat), decAtBoundary s → firstInvalid cs = some (c, p) →
    ∃ u : State, execAll ((cs.take p).map .decPush) s = .next u ∧ u.decErr = false ∧ u.decIdx = p ∧
      execAll (cs.map .decPush) s = .next
        { u with decErr := true, decErrChar := c, decErrPos := p, decAcc := 0, decPos := 0 }) ∧
  ∀ (c : CharCode) (s : State), s.decErr = false → rev c = none →
    exec (.decPush c) s = .next
      { s with decErr := true, decErrChar := c, decErrPos := s.decIdx, decAcc := 0, decPos := 0 } ∧
    exec (.decPushl c) s = .next
      { s with
        decErr := false, decErrChar := 0, decErrPos := 0, decAcc := 0, decPos := 0, decIdx := 0
        decRes := s.decRes ++ [.beat (.done .invalidCharacter c s.decIdx)] }

/-- 60 R147, R149: in FAULTED every `DEC.PUSH` does nothing; while the decoder stays FAULTED no step changes the
recorded error, and it leaves FAULTED only by the command that ends the message or by `RST`. -/
def Obligations.FaultedIgnoresPushes : Prop :=
  (∀ (c : CharCode) (s : State), s.decErr = true → exec (.decPush c) s = .next s) ∧
  (∀ s t : State, s.decErr = true → step s = .next t →
    (t.decErr = true ∧ sameDecRegs s t ∧ t.decRes = s.decRes) ∨
    (t.decErr = false ∧ ∃ m ms, s.pending = m :: ms ∧
      (m = .rst ∨ ∃ w i, m = .word .dec w ∧ decode .dec w = .ok i ∧ i.endsMessage = true)))

/-- 60 R148: the trap return: the command that ends a faulted message reports the recorded character and position and
puts every decoder register back to its reset value. -/
def Obligations.TrapReturnReportsTheError : Prop :=
  ∀ (i : Instr) (s : State), i.port = .dec → i.endsMessage = true → s.decErr = true →
    exec i s = .next
      { s with
        decErr := false, decErrChar := 0, decErrPos := 0, decAcc := 0, decPos := 0, decIdx := 0
        decRes := s.decRes ++ [.beat (.done .invalidCharacter s.decErrChar s.decErrPos)] }

/-- 30 R58, 60 R140: the exception is raised by exactly a `DEC.PUSH` or `DEC.PUSHL` whose character has no index,
while `DEC.ERR = 0`; 198 codes raise it; its status code is `0b01`. The four codes, and which unit emits which: the
encoder only `OK`, the decoder `OK` and `InvalidCharacter`, nobody the other two. -/
def Obligations.OnlyInvalidCharactersRaise : Prop :=
  (∀ (i : Instr) (s : State), ∃ t : State, exec i s = .next t ∧
    ((s.decErr = false ∧ (t.decErr = true ∨
        ∃ c p, decEmits s t [.done .invalidCharacter c p])) ↔
      (s.decErr = false ∧ ∃ c, (i = .decPush c ∨ i = .decPushl c) ∧ rev c = none))) ∧
  (List.range 256).countP (fun n => (rev (BitVec.ofNat 8 n)).isNone) = 198 ∧
  Status.code .ok = 0b00#2 ∧ Status.code .invalidCharacter = 0b01#2 ∧ Status.code .invalidLength = 0b10#2 ∧
  Status.code .reserved = 0b11#2 ∧
  ∀ (i : Instr) (s : State), ∃ t es ds, exec i s = .next t ∧ encEmits s t es ∧
    decEmits s t ds ∧ (∀ st, EncBeat.done st ∈ es → st = .ok) ∧
    (∀ st c p, DecBeat.done st c p ∈ ds → st = .ok ∨ st = .invalidCharacter)

/-- 10 R17, the flag: what each command leaves in `DEC.ERR`. -/
def Obligations.ErrorFlagRule : Prop :=
  ∀ (i : Instr) (s : State), ∃ t : State, exec i s = .next t ∧ t.decErr = match i with
    | .encPush _ | .encPushl _ | .encEnd => s.decErr
    | .decPush c => s.decErr || isInvalid c
    | .decPushl _ | .decEnd => false

/-! ### Counters -/

/-- 10 R14, R15, R16: how each command moves the two position counters, which stay within 0 to 4 and 0 to 7; from a
message boundary they count the elements of the current block, `DEC.IDX` counts the valid characters before the first
invalid one, and the error registers hold that first invalid character and its position. -/
def Obligations.CountersCountTheElements : Prop :=
  (∀ (i : Instr) (s : State), ∃ t : State, exec i s = .next t ∧ t.encPos.val ≤ 4 ∧ t.decPos.val ≤ 7 ∧
    t.encPos.val = (match i with
      | .encPush _ => if s.encPos.val = 4 then 0 else s.encPos.val + 1
      | .encPushl _ | .encEnd => 0
      | _ => s.encPos.val) ∧
    t.decPos.val = (match i with
      | .decPush c =>
        if s.decErr = true then s.decPos.val
        else if isInvalid c = true then 0
        else if s.decPos.val = 7 then 0 else s.decPos.val + 1
      | .decPushl _ | .decEnd => 0
      | _ => s.decPos.val)) ∧
  (∀ (s : State) (b : List Byte), encAtBoundary s →
    ∃ t : State, execAll (b.map .encPush) s = .next t ∧ t.encPos.val = b.length % 5) ∧
  (∀ (s : State) (cs : List CharCode), decAtBoundary s → (∀ c ∈ cs, isInvalid c = false) →
    ∃ t : State, execAll (cs.map .decPush) s = .next t ∧ t.decPos.val = cs.length % 8) ∧
  (∀ (s : State) (cs : List CharCode), decAtBoundary s →
      ∃ t : State, execAll (cs.map .decPush) s = .next t ∧
        t.decIdx = (cs.takeWhile fun c => !isInvalid c).length ∧
        (match firstInvalid cs with
          | none => t.decErr = false ∧ t.decIdx % 8 = t.decPos.val
          | some (c, p) => t.decErr = true ∧ t.decErrChar = c ∧ t.decErrPos = p ∧ t.decIdx = p))

/-! ### Beats -/

/-- 30 R56: the words of the encoder's beats, and that they are the only words of `ENC.RES`: a character's word is its
code, `DONE(OK)` is `0x100`, and reading a beat's word back gives the beat; the characters of a message are those
between the previous `DONE` or reset and its own `DONE`. -/
def Obligations.EncoderBeatWords : Prop :=
  (∀ c : CharCode, (EncBeat.char c).word.toNat = c.toNat) ∧ (EncBeat.done .ok).word = 0x100#11 ∧
  (∀ b : EncBeat, EncBeat.ofWord b.word = some b) ∧
  (∀ (i : Instr) (s : State), i.port = .enc → ∃ t bs, exec i s = .next t ∧ encEmits s t bs ∧
    ∀ b ∈ bs, b.word.extractLsb' 9 2 = 0 ∧ (b.word.getLsbD 8 = true → b.word = 0x100#11)) ∧
  ∀ (l : List (Seen EncBeat)) (cs : List CharCode),
    encTexts (l ++ (cs.map EncBeat.char ++ [EncBeat.done .ok]).map .beat) = encTexts l ++ [encOpenFrom [] l ++ cs]

/-- 30 R57: the words of the decoder's beats for every width `IDXW` that holds the position: `BYTE(b)` is `b`,
`DONE(OK)` is `0x100`, `DONE(InvalidCharacter, c, p)` is `(p << 11) | 0x300 | c`, and reading a word back gives the
beat; the decoder emits no other word. The bytes of a message are those between the previous `DONE` or reset and its
own `DONE`, and void when that carries an error. -/
def Obligations.DecoderBeatWords : Prop :=
  (∀ (n : Nat) (b : Byte), ((DecBeat.byte b).word n).toNat = b.toNat) ∧
  (∀ n : Nat, ((DecBeat.done .ok 0 0).word n).toNat = 0x100) ∧
  (∀ (n p : Nat) (c : CharCode), p < 2 ^ n →
    ((DecBeat.done .invalidCharacter c p).word n).toNat = p <<< 11 ||| 0x300 ||| c.toNat) ∧
  (∀ (n : Nat) (b : DecBeat), b.posField < 2 ^ n → (b.word n).toNat = b.wordNat ∧ DecBeat.ofWord n (b.word n) = some b) ∧
  (∀ (i : Instr) (s : State), i.port = .dec → ∃ t bs, exec i s = .next t ∧ decEmits s t bs ∧
    ∀ b ∈ bs, (∃ v, b = .byte v) ∨ b = .done .ok 0 0 ∨ ∃ c p, b = .done .invalidCharacter c p) ∧
  ∀ (l : List (Seen DecBeat)) (vs : List Byte) (st : Status) (c : CharCode) (p : Nat),
    decResults (l ++ (vs.map DecBeat.byte ++ [DecBeat.done st c p]).map .beat) =
      decResults l ++ [if st = .ok then .ok (decOpenFrom [] l ++ vs) else .err st c p]

/-- 92 D13, 10 R16: for messages shorter than `2 ^ IDXW` a finite counter width shows no difference: both position
registers stay below `2 ^ IDXW`, and every beat is read back from its `11 + IDXW`-bit word. -/
def Obligations.FiniteCounterWidthSuffices : Prop :=
  ∀ (n : Nat) (cs : List CharCode) (x : State), fitsCounter n cs = true → decAtBoundary x →
    (∃ t : State, execAll (cs.map .decPush) x = .next t ∧ t.decIdx < 2 ^ n ∧ t.decErrPos < 2 ^ n) ∧
    ∃ (t : State) (bs : List DecBeat), execAll (decMsg cs) x = .next t ∧ decEmits x t bs ∧
      ∀ b ∈ bs, b.posField < 2 ^ n ∧ DecBeat.ofWord n (b.word n) = some b

/-! ### Invariants -/

/-- The invariants of 10 R23 and of the port histories hold at reset. -/
def Obligations.InvariantsHoldAtReset : Prop := UnitInv State.reset ∧ PortInv State.reset

/-- 10 R23, which the spec derives: the invariants I-E1 to I-D4 hold after reset and every step keeps them, from every
state that meets them. -/
def Obligations.EveryStepKeepsUnitInvariants : Prop :=
  UnitInv State.reset ∧
  ∀ s t : State, UnitInv s → step s = .next t → UnitInv t ∧ t.encPos.val ≤ 4 ∧ t.decPos.val ≤ 7

/-- Sections 3 and 4 of 40 and 41, 60 R150: every step keeps the form of the two port histories: only legal beats, the
open encoder message made of full blocks, the open decoder message of exactly `5 * floor(IDX / 8)` bytes. -/
def Obligations.EveryStepKeepsPortHistories : Prop :=
  ∀ s t : State, UnitInv s → PortInv s → step s = .next t → PortInv t

/-- 10 R24, which the spec derives: a command that ends a message leaves every register of its unit at its reset
value, and what a message puts on the port from a boundary depends on the message alone. -/
def Obligations.MessagesAreIndependent : Prop :=
  (∀ (i : Instr) (s : State), i.endsMessage = true → ∃ t : State, exec i s = .next t ∧
    (i.port = .enc → encAtBoundary t) ∧ (i.port = .dec → decAtBoundary t)) ∧
  (∀ (is : List Instr) (s u : State), isMessage .enc is = true → encAtBoundary s → encAtBoundary u →
    ∃ t v bs, execAll is s = .next t ∧ execAll is u = .next v ∧ t.encRes = s.encRes ++ bs ∧ v.encRes = u.encRes ++ bs ∧
      encAtBoundary t ∧ encAtBoundary v) ∧
  (∀ (is : List Instr) (s u : State), isMessage .dec is = true → decAtBoundary s → decAtBoundary u →
    ∃ t v bs, execAll is s = .next t ∧ execAll is u = .next v ∧ t.decRes = s.decRes ++ bs ∧ v.decRes = u.decRes ++ bs ∧
      decAtBoundary t ∧ decAtBoundary v)

/-- 00 R2, 20 R46: the two units are independent: of any run the encoder sees only the moves on its own port and the
resets, and its registers and its port end as if the decoder did not exist; and the same the other way round. -/
def Obligations.UnitsAreIndependent : Prop :=
  ∀ (s t : State) (ms : List HostMove), runMoves ms s = .next t →
    (∃ u, runMoves (movesFor .enc ms) s = .next u ∧ sameEncRegs t u ∧ u.encRes = t.encRes) ∧
    (∃ u, runMoves (movesFor .dec ms) s = .next u ∧ sameDecRegs t u ∧ u.decRes = t.decRes)

/-! ### Whole messages -/

/-- 30 R61: what the pseudo-commands stand for, and that the second spelling gives the same. -/
def Obligations.PseudoCommandExpansions : Prop :=
  encMsg [] = [.encEnd] ∧ (∀ (b : List Byte) (d : Byte), encMsg (b ++ [d]) = b.map .encPush ++ [.encPushl d]) ∧
  decMsg [] = [.decEnd] ∧ (∀ (s : List CharCode) (c : CharCode), decMsg (s ++ [c]) = s.map .decPush ++ [.decPushl c]) ∧
  (∀ (b : List Byte) (s : State), execAll (encMsgEnd b) s = execAll (encMsg b) s) ∧
  (∀ (cs : List CharCode) (s : State), execAll (decMsgEnd cs) s = execAll (decMsg cs) s)

/-- 42 R120: both spellings are messages of the given elements with the same effect, and a message run from a boundary
ends with a `DONE` beat and no other beat of it is a `DONE`. -/
def Obligations.MessageBeatsEndWithDone : Prop :=
  (∀ b : List Byte, isMessage .enc (encMsg b) = true ∧ isMessage .enc (encMsgEnd b) = true ∧
    (encMsg b).filterMap Instr.datum = b ∧ (encMsgEnd b).filterMap Instr.datum = b ∧
    ∀ s, execAll (encMsgEnd b) s = execAll (encMsg b) s) ∧
  (∀ cs : List CharCode, isMessage .dec (decMsg cs) = true ∧ isMessage .dec (decMsgEnd cs) = true ∧
    (decMsg cs).filterMap Instr.datum = cs ∧ (decMsgEnd cs).filterMap Instr.datum = cs ∧
    ∀ s, execAll (decMsgEnd cs) s = execAll (decMsg cs) s) ∧
  (∀ (is : List Instr) (s : State), isMessage .enc is = true → encAtBoundary s →
    ∃ (t : State) (cs : List CharCode), execAll is s = .next t ∧
      encEmits s t (cs.map .char ++ [.done .ok])) ∧
  (∀ (is : List Instr) (s : State), isMessage .dec is = true → decAtBoundary s →
    ∃ (t : State) (vs : List Byte) (st : Status) (c : CharCode) (p : Nat), execAll is s = .next t ∧
      decEmits s t (vs.map .byte ++ [.done st c p]))

/-- 42 R123, which the spec derives: the text of an encoder message is the closed form over bit strings, which is the
closed form block by block. -/
def Obligations.EncodeIsTheBitString : Prop :=
  ∀ b : List Byte, encodeMessage b = some (encodeByBits b) ∧ encodeByBlocks b = encodeByBits b

/-- 42 R124, which the spec derives: the result of a decoder message is the closed form over bit strings, which is the
closed form block by block. -/
def Obligations.DecodeIsTheBitString : Prop :=
  ∀ s : List CharCode, decodeMessage s = some (decodeByBits s) ∧ decodeByBlocks s = decodeByBits s

/-- 42 R125: the length of an encoding. -/
def Obligations.EncodingLength : Prop :=
  (∀ b : List Byte, ∃ text, encodeMessage b = some text ∧ text.length = ceilDiv (b.length * 8) 5 ∧
    text.length = 8 * (b.length / 5) + encGroups (Fin.ofNat 6 (b.length % 5))) ∧
  (List.range 11).map (fun n => ceilDiv (n * 8) 5) = [0, 2, 4, 5, 7, 8, 10, 12, 13, 15, 16]

/-- 42 R126: the length of a decoding of valid characters. -/
def Obligations.DecodingLength : Prop :=
  (∀ s : List CharCode, (∀ c ∈ s, isInvalid c = false) →
    ∃ bytes, decodeMessage s = some (.ok bytes) ∧ bytes.length = s.length * 5 / 8 ∧
      bytes.length = 5 * (s.length / 8) + decBytes (Fin.ofNat 9 (s.length % 8))) ∧
  (List.range 17).map (fun n => n * 5 / 8) = [0, 0, 1, 1, 2, 3, 3, 4, 5, 5, 6, 6, 7, 8, 8, 9, 10]

/-- 42 R127: decoding an encoding gives the bytes back; the converse holds exactly for canonical text. -/
def Obligations.RoundTrip : Prop :=
  (∀ b : List Byte, ∃ text, encodeMessage b = some text ∧ decodeMessage text = some (.ok b)) ∧
  (∀ (s : List CharCode) (bytes : List Byte), decodeMessage s = some (.ok bytes) →
    (encodeMessage bytes = some s ↔ canonicalText s = true))

/-- 42 R128: decoding ignores the case of letters: an encoding in any mixture of cases decodes to the bytes, and texts
that differ only in case give the same bytes, or errors at the same position with the character presented. -/
def Obligations.CaseDoesNotMatter : Prop :=
  (∀ (b : List Byte) (text s : List CharCode), encodeMessage b = some text → sameButCase text s = true →
    decodeMessage s = some (.ok b)) ∧
  (∀ (s t : List CharCode) (bytes : List Byte), sameButCase s t = true → decodeMessage s = some (.ok bytes) →
    decodeMessage t = some (.ok bytes)) ∧
  (∀ (s t : List CharCode) (st : Status) (c : CharCode) (p : Nat), sameButCase s t = true →
    decodeMessage s = some (.err st c p) → ∃ d, decodeMessage t = some (.err st d p) ∧ t[p]? = some d)

/-- 42 R129: the empty message: `DONE(OK)` alone on either port. -/
def Obligations.EmptyMessage : Prop :=
  encodeMessage [] = some [] ∧ decodeMessage [] = some (.ok []) ∧
  (∀ s : State, encAtBoundary s → ∃ t : State, execAll (encMsg []) s = .next t ∧ encEmits s t [.done .ok]) ∧
  (∀ s : State, decAtBoundary s → ∃ t : State, execAll (decMsg []) s = .next t ∧ decEmits s t [.done .ok 0 0])

/-- 42 R130: decoding fails exactly when some code is outside `A-Z`, `a-z`, `2-7`, and then with the first such code
and its position, whatever follows; no length is an error. -/
def Obligations.RejectionIsExact : Prop :=
  ∀ s : List CharCode,
    (∀ c : CharCode, isInvalid c = false ↔ (0x41 ≤ c.toNat ∧ c.toNat ≤ 0x5A) ∨ (0x61 ≤ c.toNat ∧ c.toNat ≤ 0x7A) ∨
      (0x32 ≤ c.toNat ∧ c.toNat ≤ 0x37)) ∧
    ((∀ c ∈ s, isInvalid c = false) ↔ ∃ bytes, decodeMessage s = some (.ok bytes)) ∧
    (∀ (c : CharCode) (p : Nat), decodeMessage s = some (.err .invalidCharacter c p) ↔
      s[p]? = some c ∧ isInvalid c = true ∧ ∀ d ∈ s.take p, isInvalid d = false)

/-- 42 R131: no element beyond the message is asked for: `L` valid characters end with `DONE(OK)` after exactly `L`
data-carrying commands, and no state of the machine is stuck. -/
def Obligations.NoElementBeyondTheMessage : Prop :=
  (∀ (s : List CharCode) (x : State), (∀ c ∈ s, isInvalid c = false) → decAtBoundary x →
    ((decMsg s).filterMap Instr.datum).length = s.length ∧ (s ≠ [] → (decMsg s).length = s.length) ∧
    ∃ t : State, execAll (decMsg s) x = .next t ∧ t.decRes.getLast? = some (.beat (.done .ok 0 0)) ∧ decAtBoundary t) ∧
  (∀ (i : Instr) (s : State), ∃ t : State, exec i s = .next t)

/-- 42 R134, which the spec derives: every character of an encoding is valid for the decoder and has a code below
0x80, so decoding it is never an error. -/
def Obligations.EncodingsAreValidText : Prop :=
  ∀ (b : List Byte) (text : List CharCode), encodeMessage b = some text →
    (∀ c ∈ text, isInvalid c = false ∧ c.toNat < 0x80) ∧
    ∀ st c p, decodeMessage text ≠ some (.err st c p)

/-- 42 R135, which the spec derives: prefixes: of encodings at block boundaries, of encodings less their last
character, and of decodings of valid text. -/
def Obligations.PrefixesCarryOver : Prop :=
  (∀ (b c : List Byte) (x y : List CharCode), encodeMessage b = some x → encodeMessage (b ++ c) = some y →
    (b.length % 5 = 0 → x <+: y) ∧ x.dropLast <+: y) ∧
  (∀ (s t : List CharCode) (x y : List Byte), (∀ c ∈ s ++ t, isInvalid c = false) →
    decodeMessage s = some (.ok x) → decodeMessage (s ++ t) = some (.ok y) → x <+: y)

/-- 60 R150: a decoder message with its first invalid character at `p` emits exactly `5 * floor(p / 8)` bytes before
its `DONE(InvalidCharacter, c, p)`, and they are no part of its result. -/
def Obligations.NoPartialResult : Prop :=
  ∀ (s : List CharCode) (x : State) (c : CharCode) (p : Nat), firstInvalid s = some (c, p) → decAtBoundary x →
    decOpenFrom [] x.decRes = [] →
    ∃ (t : State) (vs : List Byte), execAll (decMsg s) x = .next t ∧ vs.length = 5 * (p / 8) ∧
      decEmits x t (vs.map .byte ++ [.done .invalidCharacter c p]) ∧
      decResults t.decRes = decResults x.decRes ++ [.err .invalidCharacter c p]

/-- 70 R182: every command runs in one step in every state, and a message of `L` elements is finished after `L` or `L
+ 1` commands with `ceil(8L / 5) + 1` beats on `ENC.RES`, or at most `floor(5L / 8) + 1` on `DEC.RES`. -/
def Obligations.EveryMessageFinishes : Prop :=
  (∀ (s : State) (i : Instr) (ms : List HostMove), s.pending = .word i.port (encode i) :: ms →
    ∃ t : State, step s = .next t) ∧
  (∀ (b : List Byte) (s : State), encAtBoundary s → (b ≠ [] → (encMsg b).length = b.length) ∧
    (encMsgEnd b).length = b.length + 1 ∧
    ∃ t : State, execAll (encMsg b) s = .next t ∧ execAll (encMsgEnd b) s = .next t ∧
      t.encRes.length = s.encRes.length + ceilDiv (8 * b.length) 5 + 1) ∧
  (∀ (cs : List CharCode) (s : State), decAtBoundary s → (cs ≠ [] → (decMsg cs).length = cs.length) ∧
    (decMsgEnd cs).length = cs.length + 1 ∧
    ∃ t : State, execAll (decMsg cs) s = .next t ∧ execAll (decMsgEnd cs) s = .next t ∧
      t.decRes.length ≤ s.decRes.length + 5 * cs.length / 8 + 1)

/-- 70 R183: after a complete run from a message boundary the unit is at a message boundary again, every message
closed by its `DONE`, whatever the other unit did. -/
def Obligations.CompleteRunsEndAtBoundary : Prop :=
  ∀ (s t : State) (ms : List HostMove), runMoves ms s = .next t →
    (encAtBoundary s → encOpenFrom [] s.encRes = [] → runComplete .enc ms = true →
      encAtBoundary t ∧ encOpenFrom [] t.encRes = []) ∧
    (decAtBoundary s → decOpenFrom [] s.decRes = [] → runComplete .dec ms = true →
      decAtBoundary t ∧ decOpenFrom [] t.decRes = [])

/-- 70 R172: a reset in the middle of a message abandons it: no `DONE` and no other beat is emitted, the beats already
emitted stay, the host discards those of the open messages, the results so far stand, and the next command starts a
new message. -/
def Obligations.ResetAbandonsTheMessage : Prop :=
  ∀ (s : State) (ms : List HostMove), s.pending = .rst :: ms →
    ∃ t : State, step s = .next t ∧ encAtBoundary t ∧ decAtBoundary t ∧
      beatsSeen t.encRes = beatsSeen s.encRes ∧ beatsSeen t.decRes = beatsSeen s.decRes ∧
      encTexts t.encRes = encTexts s.encRes ∧ decResults t.decRes = decResults s.decRes ∧
      encOpenFrom [] t.encRes = [] ∧ decOpenFrom [] t.decRes = []

/-! ### The written notation -/

/-- 30 section 5: writing a command and reading the line gives the command, in capitals or not; the first three digits
of its listing line are its word. For each of the four commands with a datum: one ASCII character in single quotes stands
for its code, any text that reads as a number up to 255 for that number, and any that reads as a larger number is an error
of the notation. The spec's number `0x66` is the same in its three bases, and so is 256, the first number too large. -/
def Obligations.WrittenCommandsReadBack : Prop :=
  (∀ i : Instr, assembleLine (writeCommand i) = .ok [i] ∧
    readDigits 16 0 ((listingLine i).take 3) = some (encode i).toNat) ∧
  (∀ i : Instr, assembleLine ((writeCommand i).map Char.toLower) = .ok [i]) ∧
  (∀ nf ∈ [(Written.encPush, Instr.encPush), (.encPushl, .encPushl), (.decPush, .decPush), (.decPushl, .decPushl)],
    (∀ c : Char, c.toNat < 128 →
      assembleLine (nf.1.spelling ++ [' ', '\'', c, '\'']) = .ok [nf.2 (BitVec.ofNat 8 c.toNat)]) ∧
    ∀ (digits : List Char) (n : Nat), readNumber digits = some n →
      assembleLine (nf.1.spelling ++ ' ' :: digits) =
        if n ≤ 255 then .ok [nf.2 (BitVec.ofNat 8 n)] else .error (.datumOutOfRange n)) ∧
  readNumber ['1', '0', '2'] = some 0x66 ∧ readNumber ['0', 'x', '6', '6'] = some 0x66 ∧
  readNumber ['0', 'b', '0', '1', '1', '0', '0', '1', '1', '0'] = some 0x66 ∧
  readNumber ['2', '5', '6'] = some 256 ∧ readNumber ['0', 'x', '1', '0', '0'] = some 256 ∧
  readNumber ['0', 'b', '1', '0', '0', '0', '0', '0', '0', '0', '0'] = some 256
end

