-- ==== Sys2Proof/Laws/State.lean ====
section
/-! SUPPORT. What each primitive write does to each register, and each operation of the machine to each part of State: one
lemma per write and field. -/

namespace Sys2Proof.Machine

/-! ### `EncUnit.set` -/

@[simp] theorem EncUnit.set_encAcc (u : EncUnit) (acc : Acc) (pos : Fin 5) : (u.set acc pos).encAcc = acc := rfl
@[simp] theorem EncUnit.set_encPos (u : EncUnit) (acc : Acc) (pos : Fin 5) : (u.set acc pos).encPos = pos := rfl

/-! ### `DecUnit.setBlock` -/

@[simp] theorem DecUnit.setBlock_decAcc (u : DecUnit) (acc : Acc) (pos : Fin 8) :
    (u.setBlock acc pos).decAcc = acc := rfl
@[simp] theorem DecUnit.setBlock_decPos (u : DecUnit) (acc : Acc) (pos : Fin 8) :
    (u.setBlock acc pos).decPos = pos := rfl
@[simp] theorem DecUnit.setBlock_decIdx (u : DecUnit) (acc : Acc) (pos : Fin 8) :
    (u.setBlock acc pos).decIdx = u.decIdx := rfl
@[simp] theorem DecUnit.setBlock_decErr (u : DecUnit) (acc : Acc) (pos : Fin 8) :
    (u.setBlock acc pos).decErr = u.decErr := rfl
@[simp] theorem DecUnit.setBlock_decErrChar (u : DecUnit) (acc : Acc) (pos : Fin 8) :
    (u.setBlock acc pos).decErrChar = u.decErrChar := rfl
@[simp] theorem DecUnit.setBlock_decErrPos (u : DecUnit) (acc : Acc) (pos : Fin 8) :
    (u.setBlock acc pos).decErrPos = u.decErrPos := rfl

/-! ### `DecUnit.setIdx` -/

@[simp] theorem DecUnit.setIdx_decAcc (u : DecUnit) (n : Nat) : (u.setIdx n).decAcc = u.decAcc := rfl
@[simp] theorem DecUnit.setIdx_decPos (u : DecUnit) (n : Nat) : (u.setIdx n).decPos = u.decPos := rfl
@[simp] theorem DecUnit.setIdx_decIdx (u : DecUnit) (n : Nat) : (u.setIdx n).decIdx = n := rfl
@[simp] theorem DecUnit.setIdx_decErr (u : DecUnit) (n : Nat) : (u.setIdx n).decErr = u.decErr := rfl
@[simp] theorem DecUnit.setIdx_decErrChar (u : DecUnit) (n : Nat) : (u.setIdx n).decErrChar = u.decErrChar := rfl
@[simp] theorem DecUnit.setIdx_decErrPos (u : DecUnit) (n : Nat) : (u.setIdx n).decErrPos = u.decErrPos := rfl

/-! ### `DecUnit.setError` -/

@[simp] theorem DecUnit.setError_decAcc (u : DecUnit) (e : Bool) (c : CharCode) (p : Nat) :
    (u.setError e c p).decAcc = u.decAcc := rfl
@[simp] theorem DecUnit.setError_decPos (u : DecUnit) (e : Bool) (c : CharCode) (p : Nat) :
    (u.setError e c p).decPos = u.decPos := rfl
@[simp] theorem DecUnit.setError_decIdx (u : DecUnit) (e : Bool) (c : CharCode) (p : Nat) :
    (u.setError e c p).decIdx = u.decIdx := rfl
@[simp] theorem DecUnit.setError_decErr (u : DecUnit) (e : Bool) (c : CharCode) (p : Nat) :
    (u.setError e c p).decErr = e := rfl
@[simp] theorem DecUnit.setError_decErrChar (u : DecUnit) (e : Bool) (c : CharCode) (p : Nat) :
    (u.setError e c p).decErrChar = c := rfl
@[simp] theorem DecUnit.setError_decErrPos (u : DecUnit) (e : Bool) (c : CharCode) (p : Nat) :
    (u.setError e c p).decErrPos = p := rfl

/-! ### `State.setPending` -/

@[simp] theorem State.setPending_toEncUnit (s : State) (ms : List HostMove) :
    (s.setPending ms).toEncUnit = s.toEncUnit := rfl
@[simp] theorem State.setPending_toDecUnit (s : State) (ms : List HostMove) :
    (s.setPending ms).toDecUnit = s.toDecUnit := rfl
@[simp] theorem State.setPending_pending (s : State) (ms : List HostMove) : (s.setPending ms).pending = ms := rfl
@[simp] theorem State.setPending_encRes (s : State) (ms : List HostMove) : (s.setPending ms).encRes = s.encRes := rfl
@[simp] theorem State.setPending_decRes (s : State) (ms : List HostMove) : (s.setPending ms).decRes = s.decRes := rfl

/-! ### `State.commandEnc` -/

@[simp] theorem State.commandEnc_toEncUnit (s : State) (r : EncUnit × List EncBeat) :
    (s.commandEnc r).toEncUnit = r.1 := rfl
@[simp] theorem State.commandEnc_toDecUnit (s : State) (r : EncUnit × List EncBeat) :
    (s.commandEnc r).toDecUnit = s.toDecUnit := rfl
@[simp] theorem State.commandEnc_pending (s : State) (r : EncUnit × List EncBeat) :
    (s.commandEnc r).pending = s.pending := rfl
@[simp] theorem State.commandEnc_encRes (s : State) (r : EncUnit × List EncBeat) :
    (s.commandEnc r).encRes = s.encRes ++ r.2.map Seen.beat := rfl
@[simp] theorem State.commandEnc_decRes (s : State) (r : EncUnit × List EncBeat) :
    (s.commandEnc r).decRes = s.decRes := rfl

/-! ### `State.commandDec` -/

@[simp] theorem State.commandDec_toEncUnit (s : State) (r : DecUnit × List DecBeat) :
    (s.commandDec r).toEncUnit = s.toEncUnit := rfl
@[simp] theorem State.commandDec_toDecUnit (s : State) (r : DecUnit × List DecBeat) :
    (s.commandDec r).toDecUnit = r.1 := rfl
@[simp] theorem State.commandDec_pending (s : State) (r : DecUnit × List DecBeat) :
    (s.commandDec r).pending = s.pending := rfl
@[simp] theorem State.commandDec_encRes (s : State) (r : DecUnit × List DecBeat) :
    (s.commandDec r).encRes = s.encRes := rfl
@[simp] theorem State.commandDec_decRes (s : State) (r : DecUnit × List DecBeat) :
    (s.commandDec r).decRes = s.decRes ++ r.2.map Seen.beat := rfl

/-! ### `State.applyRst` -/

@[simp] theorem State.applyRst_toEncUnit (s : State) : (s.applyRst).toEncUnit = EncUnit.reset := rfl
@[simp] theorem State.applyRst_toDecUnit (s : State) : (s.applyRst).toDecUnit = DecUnit.reset := rfl
@[simp] theorem State.applyRst_pending (s : State) : (s.applyRst).pending = s.pending := rfl
@[simp] theorem State.applyRst_encRes (s : State) : (s.applyRst).encRes = s.encRes ++ [Seen.reset] := rfl
@[simp] theorem State.applyRst_decRes (s : State) : (s.applyRst).decRes = s.decRes ++ [Seen.reset] := rfl

/-! ### The reset values -/

@[simp] theorem EncUnit.reset_encAcc : EncUnit.reset.encAcc = 0 := rfl
@[simp] theorem EncUnit.reset_encPos : EncUnit.reset.encPos = 0 := rfl
@[simp] theorem DecUnit.reset_decAcc : DecUnit.reset.decAcc = 0 := rfl
@[simp] theorem DecUnit.reset_decPos : DecUnit.reset.decPos = 0 := rfl
@[simp] theorem DecUnit.reset_decIdx : DecUnit.reset.decIdx = 0 := rfl
@[simp] theorem DecUnit.reset_decErr : DecUnit.reset.decErr = false := rfl
@[simp] theorem DecUnit.reset_decErrChar : DecUnit.reset.decErrChar = 0 := rfl
@[simp] theorem DecUnit.reset_decErrPos : DecUnit.reset.decErrPos = 0 := rfl
@[simp] theorem State.reset_toEncUnit : State.reset.toEncUnit = EncUnit.reset := rfl
@[simp] theorem State.reset_toDecUnit : State.reset.toDecUnit = DecUnit.reset := rfl
@[simp] theorem State.reset_pending : State.reset.pending = [] := rfl
@[simp] theorem State.reset_encRes : State.reset.encRes = [] := rfl
@[simp] theorem State.reset_decRes : State.reset.decRes = [] := rfl

end Sys2Proof.Machine
end

