-- ==== Sys2Proof/Laws/Ops.lean ====
section
/-! SUPPORT. For each shared operation, the one answer it gives, written out: cite these, do not unfold the operation. -/

namespace Sys2Proof.Machine

/-! ### The encoder unit -/

@[simp] theorem EncUnit.clear_eq (u : EncUnit) : u.clear = EncUnit.reset := rfl

/-- The end of an encoder message. -/
theorem EncUnit.finish_eq (u : EncUnit) (acc : Acc) (n : Fin 6) :
    u.finish acc n = (EncUnit.reset, encEmit acc (encGroups n) ++ [.done .ok]) := rfl

/-- `ENC.PUSH`: the fifth byte drains the block, any other is kept (40 R74). -/
theorem EncUnit.push_cases (u : EncUnit) (d : Byte) :
    (u.encPos = 4 ∧ u.push d = (EncUnit.reset, encEmit (encPlace u.encAcc 4 d) (encGroups 5))) ∨
    (u.encPos ≠ 4 ∧ u.push d = (⟨encPlace u.encAcc u.encPos d, u.encPos + 1⟩, [])) := by
  by_cases h : u.encPos = 4
  · exact .inl ⟨h, by simp only [EncUnit.push, h, if_true, EncUnit.clear_eq]⟩
  · exact .inr ⟨h, by simp only [EncUnit.push, h, if_false]; rfl⟩

/-- `ENC.PUSHL` (40 R75). -/
theorem EncUnit.pushl_eq (u : EncUnit) (d : Byte) : u.pushl d =
    (EncUnit.reset, encEmit (encPlace u.encAcc u.encPos d) (encGroups u.encPos.succ) ++ [.done .ok]) := rfl

/-- `ENC.END` (40 R76). -/
theorem EncUnit.endMessage_eq (u : EncUnit) : u.endMessage =
    (EncUnit.reset, encEmit u.encAcc (encGroups u.encPos.castSucc) ++ [.done .ok]) := rfl

/-! ### The decoder unit -/

@[simp] theorem DecUnit.clear_eq (u : DecUnit) : u.clear = DecUnit.reset := rfl

/-- The trap entry (60 R146). -/
theorem DecUnit.raiseInvalidCharacter_eq (u : DecUnit) (c : CharCode) : u.raiseInvalidCharacter c =
    { u with decErr := true, decErrChar := c, decErrPos := u.decIdx, decAcc := 0, decPos := 0 } := rfl

/-- The trap return (60 R148). -/
theorem DecUnit.returnInvalidCharacter_eq (u : DecUnit) : u.returnInvalidCharacter =
    (DecUnit.reset, [.done .invalidCharacter u.decErrChar u.decErrPos]) := rfl

/-- The end of a decoder message without an error. -/
theorem DecUnit.finish_eq (u : DecUnit) (acc : Acc) (n : Fin 9) :
    u.finish acc n = (DecUnit.reset, decEmit acc (decBytes n) ++ [.done .ok 0 0]) := rfl

/-- Placing a valid index: the eighth drains the block, any other is kept. -/
theorem DecUnit.accept_cases (u : DecUnit) (v : Index) :
    (u.decPos = 7 ∧ u.accept v =
      ({ u with decAcc := 0, decPos := 0, decIdx := u.decIdx + 1 }, decEmit (decPlace u.decAcc 7 v) (decBytes 8))) ∨
    (u.decPos ≠ 7 ∧ u.accept v =
      ({ u with decAcc := decPlace u.decAcc u.decPos v, decPos := u.decPos + 1, decIdx := u.decIdx + 1 }, [])) := by
  by_cases h : u.decPos = 7
  · exact .inl ⟨h, by simp only [DecUnit.accept, h, if_true]; rfl⟩
  · exact .inr ⟨h, by simp only [DecUnit.accept, h, if_false]; rfl⟩

/-- `DEC.PUSH`: ignored in FAULTED, else the trap entry or the placement (41 R95). -/
theorem DecUnit.push_cases (u : DecUnit) (c : CharCode) :
    (u.decErr = true ∧ u.push c = (u, [])) ∨
    (u.decErr = false ∧ rev c = none ∧ u.push c = (u.raiseInvalidCharacter c, [])) ∨
    (u.decErr = false ∧ ∃ v, rev c = some v ∧ u.push c = u.accept v) := by
  cases he : u.decErr <;> cases hr : rev c <;> simp [DecUnit.push, DecUnit.faulted, he, hr]

/-- `DEC.PUSHL`: the recorded error, the error of its own character, or the end of the message (41 R96). -/
theorem DecUnit.pushl_cases (u : DecUnit) (c : CharCode) :
    (u.decErr = true ∧ u.pushl c = (DecUnit.reset, [.done .invalidCharacter u.decErrChar u.decErrPos])) ∨
    (u.decErr = false ∧ rev c = none ∧ u.pushl c = (DecUnit.reset, [.done .invalidCharacter c u.decIdx])) ∨
    (u.decErr = false ∧ ∃ v, rev c = some v ∧ u.pushl c = (DecUnit.reset,
      decEmit (decPlace u.decAcc u.decPos v) (decBytes u.decPos.succ) ++ [.done .ok 0 0])) := by
  cases he : u.decErr <;> cases hr : rev c <;>
    simp [DecUnit.pushl, DecUnit.faulted, he, hr, DecUnit.returnInvalidCharacter_eq, DecUnit.raiseInvalidCharacter_eq,
      DecUnit.finish_eq]

/-- `DEC.END`: the recorded error, or the end of the message (41 R97). -/
theorem DecUnit.endMessage_cases (u : DecUnit) :
    (u.decErr = true ∧ u.endMessage = (DecUnit.reset, [.done .invalidCharacter u.decErrChar u.decErrPos])) ∨
    (u.decErr = false ∧ u.endMessage = (DecUnit.reset,
      decEmit u.decAcc (decBytes u.decPos.castSucc) ++ [.done .ok 0 0])) := by
  cases he : u.decErr <;>
    simp [DecUnit.endMessage, DecUnit.faulted, he, DecUnit.returnInvalidCharacter_eq, DecUnit.finish_eq]

/-! ### Beats -/

@[simp] theorem encEmit_length (acc : Acc) (n : Nat) : (encEmit acc n).length = n := by simp [encEmit]

@[simp] theorem decEmit_length (acc : Acc) (n : Nat) : (decEmit acc n).length = n := by simp [decEmit]

@[simp] theorem encEmit_zero (acc : Acc) : encEmit acc 0 = [] := rfl

@[simp] theorem decEmit_zero (acc : Acc) : decEmit acc 0 = [] := rfl

/-- Every beat of `EncEmit` is a character of the alphabet (40 R72). -/
theorem mem_encEmit {acc : Acc} {n : Nat} {b : EncBeat} (h : b ∈ encEmit acc n) : ∃ i, b = .char (alpha i) := by
  obtain ⟨j, -, rfl⟩ := List.mem_map.mp h
  exact ⟨_, rfl⟩

/-- Every beat of `DecEmit` is a byte (41 R93). -/
theorem mem_decEmit {acc : Acc} {n : Nat} {b : DecBeat} (h : b ∈ decEmit acc n) : ∃ v, b = .byte v := by
  obtain ⟨k, -, rfl⟩ := List.mem_map.mp h
  exact ⟨_, rfl⟩

end Sys2Proof.Machine
end

