-- ==== Sys2Proof/Laws/Exec.lean ====
section
/-! SUPPORT. What a command and a step can do, said once, to be cited in place of the definitions. What each command does
to its own unit stands in Laws/Ops.lean. -/

namespace Sys2Proof.Machine

variable {s t : State}

/-- A command of the encoder is a function of the encoder's registers alone (40 R82). -/
theorem exec_enc {i : Instr} (h : i.port = .enc) :
    ∃ f : EncUnit → EncUnit × List EncBeat, ∀ s, exec i s = .next (s.commandEnc (f s.toEncUnit)) :=
  match i, h with
  | .encPush d, _ => ⟨fun u => u.push d, fun _ => rfl⟩
  | .encPushl d, _ => ⟨fun u => u.pushl d, fun _ => rfl⟩
  | .encEnd, _ => ⟨fun u => u.endMessage, fun _ => rfl⟩

/-- A command of the decoder is a function of the decoder's registers alone (41 R107). -/
theorem exec_dec {i : Instr} (h : i.port = .dec) :
    ∃ f : DecUnit → DecUnit × List DecBeat, ∀ s, exec i s = .next (s.commandDec (f s.toDecUnit)) :=
  match i, h with
  | .decPush c, _ => ⟨fun u => u.push c, fun _ => rfl⟩
  | .decPushl c, _ => ⟨fun u => u.pushl c, fun _ => rfl⟩
  | .decEnd, _ => ⟨fun u => u.endMessage, fun _ => rfl⟩

/-- What the host holds is no state of the block (10 R21, R22): what a command does to the registers, and the beats it
emits, are functions of the registers alone; it appends its beats to the ports and leaves the pending moves. -/
theorem exec_of_registers (i : Instr) : ∃ f : Registers → Registers × List EncBeat × List DecBeat, ∀ s : State,
    exec i s = .next
      { toRegisters := (f s.toRegisters).1
        pending := s.pending
        encRes := s.encRes ++ (f s.toRegisters).2.1.map Seen.beat
        decRes := s.decRes ++ (f s.toRegisters).2.2.map Seen.beat } := by
  cases hp : i.port with
  | enc =>
    obtain ⟨f, hf⟩ := exec_enc hp
    exact ⟨fun r => ({ r with toEncUnit := (f r.toEncUnit).1 }, (f r.toEncUnit).2, []),
      fun s => by simp [hf, State.commandEnc]⟩
  | dec =>
    obtain ⟨f, hf⟩ := exec_dec hp
    exact ⟨fun r => ({ r with toDecUnit := (f r.toDecUnit).1 }, [], (f r.toDecUnit).2),
      fun s => by simp [hf, State.commandDec]⟩

/-- Everything a step that goes on can do: nothing, a reset, or one command. -/
theorem step_cases (h : step s = .next t) :
    (s.pending = [] ∧ t = s) ∨
    (∃ ms, s.pending = .rst :: ms ∧ t = (s.setPending ms).applyRst) ∨
    (∃ p w ms i, s.pending = .word p w :: ms ∧ decode p w = .ok i ∧ exec i (s.setPending ms) = .next t) := by
  unfold step at h
  split at h
  · rename_i hp
    cases h
    exact .inl ⟨hp, rfl⟩
  · rename_i m ms hp
    cases m with
    | rst =>
      cases h
      exact .inr (.inl ⟨ms, hp, rfl⟩)
    | word p w =>
      simp only [runMove, runWord] at h
      split at h
      · rename_i i hi
        exact .inr (.inr ⟨p, w, ms, i, hp, hi, h⟩)
      · cases h

/-- A step is refused only for a reserved word. -/
theorem step_refused_cases {r : Refusal} (h : step s = .refused r) :
    ∃ p w ms why, s.pending = .word p w :: ms ∧ decode p w = .error why ∧ r = .reservedCommandWord p why w := by
  unfold step at h
  split at h
  · cases h
  · rename_i m ms hp
    cases m with
    | rst => cases h
    | word p w =>
      simp only [runMove, runWord] at h
      split at h
      · rename_i i _
        cases i <;> cases h
      · rename_i why hw
        cases h
        exact ⟨p, w, ms, why, hp, hw, rfl⟩

end Sys2Proof.Machine
end

