-- ==== Sys2Proof/Laws/Message.lean ====
section
/-! SUPPORT. Reading laws: commands executed in sequence, and how the host reads a history that grows. -/

namespace Sys2Proof.Machine

/-- Two sequences of commands, one after the other. -/
theorem execAll_append (is js : List Instr) (s : State) : execAll (is ++ js) s =
    match execAll is s with
    | .next t => execAll js t
    | .fault r => .fault r
    | .refused r => .refused r := by
  induction is generalizing s with
  | nil => rfl
  | cons i is ih => simp only [List.cons_append, execAll]; cases exec i s <;> simp [ih]

/-- Two runs of moves, one after the other. -/
theorem runMoves_append (ms ns : List HostMove) (s : State) : runMoves (ms ++ ns) s =
    match runMoves ms s with
    | .next t => runMoves ns t
    | .fault r => .fault r
    | .refused r => .refused r := by
  induction ms generalizing s with
  | nil => rfl
  | cons m ms ih => simp only [List.cons_append, runMoves]; cases runMove m s <;> simp [ih]

theorem beatsSeen_append {β : Type} (l m : List (Seen β)) : beatsSeen (l ++ m) = beatsSeen l ++ beatsSeen m := by
  induction l with
  | nil => rfl
  | cons x l ih => cases x <;> simp [beatsSeen, ih]

theorem encTextsFrom_append (acc : List CharCode) (l m : List (Seen EncBeat)) :
    encTextsFrom acc (l ++ m) = encTextsFrom acc l ++ encTextsFrom (encOpenFrom acc l) m := by
  induction l generalizing acc with
  | nil => rfl
  | cons x l ih => match x with
    | .beat (.char _) => simp [encTextsFrom, encOpenFrom, ih]
    | .beat (.done _) => simp [encTextsFrom, encOpenFrom, ih]
    | .reset => simp [encTextsFrom, encOpenFrom, ih]

theorem encOpenFrom_append (acc : List CharCode) (l m : List (Seen EncBeat)) :
    encOpenFrom acc (l ++ m) = encOpenFrom (encOpenFrom acc l) m := by
  induction l generalizing acc with
  | nil => rfl
  | cons x l ih => match x with
    | .beat (.char _) => simp [encOpenFrom, ih]
    | .beat (.done _) => simp [encOpenFrom, ih]
    | .reset => simp [encOpenFrom, ih]

theorem decResultsFrom_append (acc : List Byte) (l m : List (Seen DecBeat)) :
    decResultsFrom acc (l ++ m) = decResultsFrom acc l ++ decResultsFrom (decOpenFrom acc l) m := by
  induction l generalizing acc with
  | nil => rfl
  | cons x l ih => match x with
    | .beat (.byte _) => simp [decResultsFrom, decOpenFrom, ih]
    | .beat (.done _ _ _) => simp [decResultsFrom, decOpenFrom, ih]
    | .reset => simp [decResultsFrom, decOpenFrom, ih]

theorem decOpenFrom_append (acc : List Byte) (l m : List (Seen DecBeat)) :
    decOpenFrom acc (l ++ m) = decOpenFrom (decOpenFrom acc l) m := by
  induction l generalizing acc with
  | nil => rfl
  | cons x l ih => match x with
    | .beat (.byte _) => simp [decOpenFrom, ih]
    | .beat (.done _ _ _) => simp [decOpenFrom, ih]
    | .reset => simp [decOpenFrom, ih]

end Sys2Proof.Machine
end

