-- ==== Sys2Proof/Laws/PerInstr.lean ====
section
/-! SUPPORT. Statements about each command as syntax. `TableRow`: a command's word fits its own row of the opcode table
(30 R52) and no other row of the table, on the command's own port. -/

namespace Sys2Proof.Laws.TableRow

/-- The command's word, on its port, fits exactly the rows of the table that are its own. -/
def Statement (i : Instr) : Prop :=
  opcodeRow i ∈ opcodeTable ∧ opcodeTable.filter (fun r => r.fits i.port (encode i)) = [opcodeRow i]

theorem encPush (d : Byte) : Statement (.encPush d) := by unfold Statement; revert d; decide
theorem encPushl (d : Byte) : Statement (.encPushl d) := by unfold Statement; revert d; decide
theorem encEnd : Statement .encEnd := by unfold Statement; decide
theorem decPush (c : CharCode) : Statement (.decPush c) := by unfold Statement; revert c; decide
theorem decPushl (c : CharCode) : Statement (.decPushl c) := by unfold Statement; revert c; decide
theorem decEnd : Statement .decEnd := by unfold Statement; decide

end Sys2Proof.Laws.TableRow
end

