-- ==== Sys2Proof/Laws/Safety.lean ====
section
/-! SUPPORT. The register-wise terms of Safety.lean as equations between the registers of a unit. -/

namespace Sys2Proof.Machine

variable {s t : State}

theorem sameEncRegs_iff : sameEncRegs s t ↔ t.toEncUnit = s.toEncUnit :=
  ⟨fun ⟨h1, h2⟩ => congrArg₂ EncUnit.mk h1 h2, fun h => by simp [sameEncRegs, h]⟩

theorem sameDecRegs_iff : sameDecRegs s t ↔ t.toDecUnit = s.toDecUnit := by
  refine ⟨fun h => ?_, fun h => by simp [sameDecRegs, h]⟩
  rcases hs : s.toDecUnit
  rcases ht : t.toDecUnit
  simp_all [sameDecRegs]

theorem encAtBoundary_iff : encAtBoundary s ↔ s.toEncUnit = EncUnit.reset :=
  sameEncRegs_iff (s := State.reset)

theorem decAtBoundary_iff : decAtBoundary s ↔ s.toDecUnit = DecUnit.reset :=
  sameDecRegs_iff (s := State.reset)

end Sys2Proof.Machine
end

