-- ==== Sys2Proof/Tests/Slice0.lean ====
section
/-! SUPPORT. Tests. Expected results are the spec's own: 95_test_vectors.md, the worked examples of 40 and 41, and words
written out from 30 R52. `witness_` theorems show states and operands that meet the hypotheses of a statement. -/

namespace Sys2Proof.Tests

open Sys2Proof Sys2Proof.Machine

/-- The next state, if there is one. -/
def nextOf : Result → Option State
  | .next t => some t
  | .fault _ => none
  | .refused _ => none

/-- The refusal, if there is one. -/
def refusalOf : Result → Option Refusal
  | .next _ => none
  | .fault _ => none
  | .refused r => some r

/-- A state of the encoder, the decoder at reset. -/
def encAt (acc : Acc) (pos : Fin 5) : State := { State.reset with encAcc := acc, encPos := pos }

/-- A state of the decoder without an error, the encoder at reset. -/
def decAt (acc : Acc) (pos : Fin 8) (idx : Nat) : State :=
  { State.reset with decAcc := acc, decPos := pos, decIdx := idx }

/-- The decoder FAULTED by the character at a position, as in program P3. -/
def faultedAt (c : CharCode) (p : Nat) : State :=
  { State.reset with decIdx := p, decErr := true, decErrChar := c, decErrPos := p }

/-- What a command leaves of the encoder: accumulator, position, words on the port. -/
def encView (r : Result) : Option (Acc × Fin 5 × List (BitVec 11)) :=
  (nextOf r).map fun t => (t.encAcc, t.encPos, t.encRes.filterMap fun b => match b with
    | .beat b => some b.word
    | .reset => none)

/-- The decoder's registers and the beats of its port, as numbers. -/
structure DecView where
  acc : Acc
  pos : Fin 8
  idx : Nat
  err : Bool
  errChar : CharCode
  errPos : Nat
  beats : List Nat
  deriving DecidableEq, Repr

/-- What a command leaves of the decoder. -/
def decView (r : Result) : Option DecView :=
  (nextOf r).map fun t => ⟨t.decAcc, t.decPos, t.decIdx, t.decErr, t.decErrChar, t.decErrPos,
    t.decRes.filterMap fun b => match b with
      | .beat b => some b.wordNat
      | .reset => none⟩

/-! ### Words (30 R52, bit by bit) -/

theorem test_decode_enc_push : (decode .enc 0b0001100110#10).toOption = some (.encPush 0x66) := by decide
theorem test_decode_enc_pushl : (decode .enc 0b0111111111#10).toOption = some (.encPushl 0xFF) := by decide
theorem test_decode_enc_end : (decode .enc 0b1000000000#10).toOption = some .encEnd := by decide
theorem test_decode_dec_push : (decode .dec 0b0000111101#10).toOption = some (.decPush 0x3D) := by decide
theorem test_decode_dec_pushl : (decode .dec 0b0110000000#10).toOption = some (.decPushl 0x80) := by decide
theorem test_decode_dec_end : (decode .dec 0b1000000000#10).toOption = some .decEnd := by decide
theorem test_decode_reserved :
    (decode .enc 0b1000000001#10).toOption = none ∧ (decode .dec 0b1011111111#10).toOption = none ∧
    (decode .enc 0b1100000000#10).toOption = none ∧ (decode .dec 0b1111111111#10).toOption = none := by decide
/-- The host's table words: bit 10 is the model's mark of the port (log entry 7). -/
theorem test_decode_table_word :
    decodeTableWord 16 0x166 = some (.encPushl 0x66) ∧ decodeTableWord 10 0x200 = some .encEnd ∧
    decodeTableWord 16 0x566 = some (.decPushl 0x66) ∧ decodeTableWord 16 0x300 = none := by decide

/-! ### Well-formedness: an ill-formed term for each check -/

theorem test_wf_every_command : (Instr.encPush 0xFF).wf = true ∧ Instr.decEnd.wf = true := by decide
theorem test_wf_refuses_reserved_word :
    CmdWord.admissible 0x201#10 = false ∧ CmdWord.admissible 0x300#10 = false ∧ CmdWord.admissible 0x200#10 = true := by
  decide
theorem test_wf_refuses_reserved_move :
    HostMove.admissible (.word .dec 0x3FF#10) = false ∧ admissible [.rst, .word .enc 0x2FF#10] = false ∧
    admissible [.rst, .word .enc 0x166#10] = true := by decide
theorem test_wf_refuses_broken_message :
    isMessage .enc [] = false ∧ isMessage .enc [.encPush 0x66] = false ∧ isMessage .enc [.encEnd, .encEnd] = false ∧
    isMessage .enc [.encPush 0x66, .decEnd] = false ∧ isMessage .dec [.decPush 0x6D, .decPushl 0x79] = true := by decide
theorem test_wf_refuses_large_datum : datumInRange 256 = false ∧ datumInRange 255 = true := by decide
theorem test_wf_refuses_long_message :
    fitsCounter 1 [0x6D, 0x79] = false ∧ fitsCounter 2 [0x6D, 0x79] = true := by decide

/-! ### Single commands (95 sections 2.2, 3.3, 5 and 7) -/

/-- 95 section 2.2, row `ENC.POS=2`, `ENC.PUSH 0xA5`. -/
theorem test_enc_push_keeps_byte :
    encView (exec (.encPush 0xA5) (encAt 0x1234000000 2)) = some (0x1234A50000#40, 3, []) := by decide
/-- 40 R74, worked example: the fifth byte drains `mzxw6ytb`. -/
theorem test_enc_push_drains_block :
    encView (exec (.encPush 0x61) (encAt 0x666F6F6200 4)) =
      some (0, 0, [0x06D, 0x07A, 0x078, 0x077, 0x036, 0x079, 0x074, 0x062]) := by decide
/-- 95 section 2.2, row `ENC.POS=2`, `ENC.PUSHL 0xA5`: `ci2kk`. -/
theorem test_enc_pushl_partial_block :
    encView (exec (.encPushl 0xA5) (encAt 0x1234000000 2)) =
      some (0, 0, [0x063, 0x069, 0x032, 0x06B, 0x06B, 0x100]) := by decide
/-- 95 section 2.2, row `ENC.POS=4`, `ENC.PUSHL 0xA5`: drained once, `ci2fm6ff`. -/
theorem test_enc_pushl_full_block :
    encView (exec (.encPushl 0xA5) (encAt 0x1234567800 4)) =
      some (0, 0, [0x063, 0x069, 0x032, 0x066, 0x06D, 0x036, 0x066, 0x066, 0x100]) := by decide
/-- 95 section 2.2, row `ENC.POS=4`, `ENC.END`: seven characters, `ci2fm6a`. -/
theorem test_enc_end_seven_characters :
    encView (exec .encEnd (encAt 0x1234567800 4)) =
      some (0, 0, [0x063, 0x069, 0x032, 0x066, 0x06D, 0x036, 0x061, 0x100]) := by decide
/-- 40 R76: the empty message. -/
theorem test_enc_end_empty_message : encView (exec .encEnd State.reset) = some (0, 0, [0x100]) := by decide
/-- 95 section 3.3, row `POS=7`, `DEC.PUSH 'k'`: five bytes, `IDX` goes on. -/
theorem test_dec_push_drains_block :
    decView (exec (.decPush 0x6B) (decAt 0xFFFFFFFFE0 7 7)) =
      some ⟨0, 0, 8, false, 0, 0, [0xFF, 0xFF, 0xFF, 0xFF, 0xEA]⟩ := by decide
/-- 95 P3: the trap entry at position 9. -/
theorem test_dec_push_trap_entry :
    decView (exec (.decPush 0x3D) (decAt 0x7000000000 1 9)) = some ⟨0, 0, 9, true, 0x3D, 9, []⟩ := by decide
/-- 95 section 3.3, row `POS=4`, `DEC.PUSHL 'k'`. -/
theorem test_dec_pushl_partial_block :
    decView (exec (.decPushl 0x6B) (decAt 0xFFFFF00000 4 4)) =
      some ⟨0, 0, 0, false, 0, 0, [0xFF, 0xFF, 0xF5, 0x100]⟩ := by decide
/-- 95 P3: `DEC.PUSHL 'a'` in FAULTED reports the recorded error. -/
theorem test_dec_pushl_reports_error :
    decView (exec (.decPushl 0x61) (faultedAt 0x3D 9)) = some ⟨0, 0, 0, false, 0, 0, [0x4B3D]⟩ := by decide
/-- 95 section 3.3, row `POS=6`, `DEC.END`: three bytes, not four. -/
theorem test_dec_end_six_characters :
    decView (exec .decEnd (decAt 0xFFFFFFFC00 6 6)) =
      some ⟨0, 0, 0, false, 0, 0, [0xFF, 0xFF, 0xFF, 0x100]⟩ := by decide
/-- 95 section 5: `PUSH 'm'`, `PUSH 'y'`, `PUSH '='`, `END` ends in the single beat `0x133D`. -/
theorem test_dec_end_reports_error :
    decView (exec .decEnd (faultedAt 0x3D 2)) = some ⟨0, 0, 0, false, 0, 0, [0x133D]⟩ := by decide

/-! ### Steps -/

/-- 95 P6: `RST` in mid-message clears the register and emits nothing. -/
theorem test_step_rst :
    encView (step ((encAt 0x6600000000 1).setPending [.rst])) = some (0, 0, []) := by decide
/-- 95 P6: the same for a FAULTED decoder. -/
theorem test_step_rst_faulted :
    decView (step ((faultedAt 0x3D 0).setPending [.rst])) = some ⟨0, 0, 0, false, 0, 0, []⟩ := by decide
/-- 60 R155: nothing presented, nothing changes. -/
theorem test_step_idle : nextOf (step State.reset) = some State.reset := by decide
/-- 95 "What is refused". -/
theorem test_step_refuses_reserved :
    refusalOf (step (State.reset.setPending [.word .dec 0x201#10])) =
      some (.reservedCommandWord .dec .endWithData 0x201#10) ∧
    refusalOf (step (State.reset.setPending [.word .enc 0x300#10])) =
      some (.reservedCommandWord .enc .op3 0x300#10) := by decide
/-- 95 section 2.3: `ENC.MSG "f"` is the word `166`, placed as the next move. -/
theorem test_step_fetch_word :
    encView (step (State.reset.withFetchWord 16 0x166)) = some (0, 0, [0x06D, 0x079, 0x100]) := by decide

/-! ### Tables, beats, messages, notation -/

/-- 95 section 6. -/
theorem test_tables :
    alpha 12 = 0x6D ∧ alpha 31 = 0x37 ∧ rev 0x5A = some 25 ∧ rev 0x37 = some 31 ∧ rev 0x40 = none ∧ rev 0x5B = none ∧
    rev 0x60 = none ∧ rev 0x7B = none ∧ rev 0x31 = none ∧ rev 0x38 = none ∧ rev 0x80 = none := by decide
/-- 95 section 5, `"mzxw6ytbmzxw6ytb\xff"`: the `DONE` word `0x83FF`, at a counter width of 5 bits. -/
theorem test_done_word :
    (DecBeat.done .invalidCharacter 0xFF 16).wordNat = 0x83FF ∧
    (DecBeat.done .invalidCharacter 0xFF 16).word 5 = 0x83FF#16 := by decide
/-- 95 section 1.1: `"f"` is `"my"`. -/
theorem test_encode_f : encodeMessage [0x66] = some [0x6D, 0x79] := by decide
/-- 95 section 3.1: `"mzx"` is one byte, not the source table's two. -/
theorem test_decode_tail_of_three : decodeMessage [0x6D, 0x7A, 0x78] = some (.ok [0x66]) := by decide
/-- 95 section 5: `"m=!="` reports the first invalid character. -/
theorem test_decode_first_invalid :
    decodeMessage [0x6D, 0x3D, 0x21, 0x3D] = some (.err .invalidCharacter 0x3D 1) := by decide
/-- 30 R60: a quoted character, a comment and small letters. -/
theorem test_notation_command :
    (assembleLine ['e', 'n', 'c', '.', 'p', 'u', 's', 'h', ' ', '\'', 'f', '\'', ' ', ';', 'x']).toOption =
      some [.encPush 0x66] := by decide
/-- 30 R61: `ENC.MSG [0x66, 111]`. -/
theorem test_notation_message :
    (assembleLine ['E', 'N', 'C', '.', 'M', 'S', 'G', ' ', '[', '0', 'x', '6', '6', ',', ' ', '1', '1', '1', ']']).toOption =
      some [.encPush 0x66, .encPushl 0x6F] := by decide
/-- 30 R60: the listing's `066  ENC.PUSH`, the datum in hexadecimal. -/
theorem test_notation_listing :
    listingLine (.encPush 0x66) =
      ['0', '6', '6', ' ', ' ', 'E', 'N', 'C', '.', 'P', 'U', 'S', 'H', ' ', '0', 'x', '6', '6'] := by decide

/-! ### Witnesses: the hypotheses of the statements can be met -/

/-- `Obligations.DecodeEncodeAgree`. -/
theorem witness_wf : (Instr.encPush 0x66).wf = true := by decide

/-- `Obligations.ReservedWordsAreRefused`, both clauses of the range and a word outside it. -/
theorem witness_reserved : ∀ w ∈ [0x201#10, 0x2FF#10, 0x300#10, 0x3FF#10, 0x200#10],
    (State.reset.setPending [.word .enc w]).pending = [.word .enc w] := by decide

/-- `Obligations.StepRunsPresentedCommand`, and `Obligations.EveryMessageFinishes`, first clause. -/
theorem witness_presented :
    (State.reset.setPending [.word .dec 0x179#10]).pending = .word .dec 0x179#10 :: [] ∧
    decode .dec 0x179#10 = .ok (.decPushl 0x79) ∧ (Instr.decPushl 0x79).wf = true := ⟨rfl, rfl, rfl⟩

/-- `Obligations.RstClearsEveryRegister` and `Obligations.ResetAbandonsTheMessage`; and a step that changes a
register. -/
theorem witness_rst :
    ((encAt 0x6600000000 1).setPending [.rst]).pending = .rst :: [] ∧
    step ((encAt 0x6600000000 1).setPending [.rst]) =
      .next ((encAt 0x6600000000 1).setPending []).applyRst ∧
    ¬ (sameEncRegs (encAt 0x6600000000 1) ((encAt 0x6600000000 1).setPending []).applyRst) :=
  ⟨rfl, rfl, by decide⟩

/-- `Obligations.ResetValuesAreZero`, `Obligations.MessagesAreIndependent`, first clauses. -/
theorem witness_ends : Instr.encEnd.endsMessage = true ∧ (Instr.decPushl 0x6D).endsMessage = true := by decide

/-- The statements about one unit's commands (`EncoderNeverFails`, `BeatsPerCommand`, `EncoderBeatWords`,
`DecoderBeatWords`). -/
theorem witness_port : (Instr.encPush 0).port = .enc ∧ (Instr.decEnd).port = .dec := by decide

/-- `Obligations.EncoderFrame` and `Obligations.DecoderFrame`: two different states that agree in one unit. -/
theorem witness_frames :
    sameEncRegs (encAt 0x6600000000 1) { encAt 0x6600000000 1 with decIdx := 3 } ∧
    sameDecRegs (decAt 0x6000000000 1 1) { decAt 0x6000000000 1 1 with encAcc := 0x6600000000, encPos := 1 } := by decide

/-- `Obligations.LanesOfTheAccumulators`: empty lanes, first and last. -/
theorem witness_empty_lanes :
    (0x0012345678#40).extractLsb' (32 - 8 * (0 : Fin 5).val) 8 = 0 ∧
    (0x1234567800#40).extractLsb' (32 - 8 * (4 : Fin 5).val) 8 = 0 ∧
    (0x0712345678#40).extractLsb' (35 - 5 * (0 : Fin 8).val) 5 = 0 ∧
    (0xFFFFFFFFE0#40).extractLsb' (35 - 5 * (7 : Fin 8).val) 5 = 0 := by decide

/-- `Obligations.PlacementIsAddition`, `Obligations.EveryStepKeepsUnitInvariants`: states with pending elements. -/
theorem witness_invariants :
    encTailZero (encAt 0x1234567800 4) ∧ decTailZero (decAt 0xFFFFFFFFE0 7 7) ∧
    UnitInv { decAt 0xFFFFFFFFE0 7 7 with encAcc := 0x1234567800, encPos := 4 } ∧ UnitInv (faultedAt 0x3D 9) := by decide

/-- `Obligations.EveryStepKeepsUnitInvariants` and `Obligations.EveryStepKeepsPortHistories`: the first step of a
FAULTED message's end. -/
theorem witness_step_invariants :
    UnitInv ((faultedAt 0x3D 2).setPending [.word .dec 0x200#10]) ∧
    PortInv ((faultedAt 0x3D 2).setPending [.word .dec 0x200#10]) ∧
    step ((faultedAt 0x3D 2).setPending [.word .dec 0x200#10]) = .next
      ((faultedAt 0x3D 2).commandDec (faultedAt 0x3D 2).toDecUnit.returnInvalidCharacter) :=
  ⟨by decide, by decide, rfl⟩

/-- `Obligations.TailsAndLeftoverBits`, the clauses about one character. -/
theorem witness_one_character_tail :
    (decAt 0 0 8).decErr = false ∧ (decAt 0 0 8).decPos = 0 ∧ (rev 0x6D).isSome = true ∧
    (decAt 0x6000000000 1 9).decErr = false ∧ (decAt 0x6000000000 1 9).decPos = 1 := by decide

/-- `Obligations.TailsAndLeftoverBits`, the clause about leftover bits: `mz` and `my` differ in the accumulator only in dropped bits. -/
theorem witness_leftover :
    (decAt 0x6640000000 2 2).decErr = false ∧
    0x6600000000#40 >>> (40 - 8 * decBytes (2 : Fin 8).castSucc) =
      (decAt 0x6640000000 2 2).decAcc >>> (40 - 8 * decBytes (decAt 0x6640000000 2 2).decPos.castSucc) := by decide

/-- `Obligations.TailsAndLeftoverBits`, the clause about `PUSHL`: `z` after `m` and `y` after `m`. -/
theorem witness_leftover_pushl :
    (decAt 0x6000000000 1 1).decErr = false ∧ rev 0x7A = some 25 ∧ rev 0x79 = some 24 ∧
    decPlace 0x6000000000#40 (1 : Fin 8) 24 >>> (40 - 8 * decBytes (1 : Fin 8).succ) =
      decPlace 0x6000000000#40 (1 : Fin 8) 25 >>> (40 - 8 * decBytes (1 : Fin 8).succ) := by decide

/-- `Obligations.TrapEntryRecordsTheError`, the clause about one command. -/
theorem witness_trap_entry : (decAt 0x7000000000 1 9).decErr = false ∧ rev 0x3D = none := by decide

/-- `Obligations.FaultedIgnoresPushes`, `Obligations.TrapReturnReportsTheError`. -/
theorem witness_faulted :
    (faultedAt 0x3D 9).decErr = true ∧
    step ((faultedAt 0x3D 9).setPending [.word .dec 0x069#10]) = .next (faultedAt 0x3D 9) ∧
    Instr.decEnd.port = .dec ∧ Instr.decEnd.endsMessage = true := ⟨rfl, rfl, rfl, rfl⟩

/-- `Obligations.CountersCountTheElements`, `Obligations.FiniteCounterWidthSuffices`,
`Obligations.EmptyMessage`, `Obligations.EveryMessageFinishes`: a boundary that is not the reset state, and valid
characters. -/
theorem witness_boundary :
    encAtBoundary (decAt 0x6000000000 1 1) ∧ decAtBoundary (encAt 0x6600000000 1) ∧
    (∀ c ∈ [0x6D#8, 0x79#8], isInvalid c = false) ∧ fitsCounter 2 [0x6D, 0x79] = true := by decide

/-- `Obligations.MessagesAreIndependent`, `Obligations.MessageBeatsEndWithDone`. -/
theorem witness_message :
    isMessage .enc [.encPush 0x66, .encPushl 0x6F] = true ∧ isMessage .dec [.decPush 0x3D, .decEnd] = true ∧
    encAtBoundary State.reset ∧ encAtBoundary (faultedAt 0x3D 9) ∧ decAtBoundary State.reset ∧
    decAtBoundary (encAt 0x6600000000 1) := by decide

/-- `Obligations.UnitsAreIndependent`, `Obligations.CompleteRunsEndAtBoundary`: a complete run of both units with a
reset in it. -/
theorem witness_run :
    (∃ t, runMoves [.word .enc 0x066#10, .rst, .word .dec 0x16D#10, .word .enc 0x16F#10] State.reset = .next t) ∧
    runComplete .enc [.word .enc 0x066#10, .rst, .word .dec 0x16D#10, .word .enc 0x16F#10] = true ∧
    runComplete .dec [.word .enc 0x066#10, .rst, .word .dec 0x16D#10, .word .enc 0x16F#10] = true ∧
    encAtBoundary State.reset ∧ decAtBoundary State.reset ∧
    encOpenFrom [] State.reset.encRes = [] ∧ decOpenFrom [] State.reset.decRes = [] :=
  ⟨⟨_, rfl⟩, by decide, by decide, by decide, by decide, rfl, rfl⟩

/-- `Obligations.RoundTrip`, second clause, and `Obligations.DecodingLength`. -/
theorem witness_decoding :
    decodeMessage [0x6D, 0x7A] = some (.ok [0x66]) ∧ (∀ c ∈ [0x6D#8, 0x7A#8], isInvalid c = false) := by decide

/-- `Obligations.CaseDoesNotMatter`, each clause: `my` and `MY`, and the error of `m=`, `M=`. -/
theorem witness_case :
    encodeMessage [0x66] = some [0x6D, 0x79] ∧ sameButCase [0x6D, 0x79] [0x4D, 0x59] = true ∧
    decodeMessage [0x6D, 0x79] = some (.ok [0x66]) ∧ sameButCase [0x6D, 0x3D] [0x4D, 0x3D] = true ∧
    decodeMessage [0x6D, 0x3D] = some (.err .invalidCharacter 0x3D 1) := by decide

/-- `Obligations.NoElementBeyondTheMessage`: lengths 0 and 2 from a boundary. -/
theorem witness_valid_text :
    (∀ c ∈ ([] : List CharCode), isInvalid c = false) ∧ (∀ c ∈ [0x6D#8, 0x79#8], isInvalid c = false) ∧
    [0x6D#8, 0x79#8] ≠ [] ∧ decAtBoundary State.reset := by decide

/-- `Obligations.EncodingsAreValidText`, `Obligations.PrefixesCarryOver`: a text of one block and a part of it. -/
theorem witness_prefixes :
    encodeMessage [0x66] = some [0x6D, 0x79] ∧ encodeMessage ([0x66] ++ [0x6F]) = some [0x6D, 0x7A, 0x78, 0x71] ∧
    (∀ c ∈ [0x6D#8, 0x79#8] ++ [0x6D#8, 0x79#8], isInvalid c = false) ∧
    decodeMessage [0x6D, 0x79] = some (.ok [0x66]) ∧
    decodeMessage ([0x6D, 0x79] ++ [0x6D, 0x79]) = some (.ok [0x66, 0x19]) := by decide

/-- `Obligations.PrefixesCarryOver`, the clause about full blocks. -/
theorem witness_full_block :
    encodeMessage [0, 0, 0, 0, 1] = some [0x61, 0x61, 0x61, 0x61, 0x61, 0x61, 0x61, 0x62] ∧
    [0#8, 0#8, 0#8, 0#8, 1#8].length % 5 = 0 := by decide

/-- `Obligations.NoPartialResult` and the first clause of `Obligations.TrapEntryRecordsTheError`: an error in the second
block. -/
theorem witness_no_partial_result :
    firstInvalid [0x61, 0x61, 0x61, 0x61, 0x61, 0x61, 0x61, 0x61, 0x3D] = some (0x3D, 8) ∧
    decAtBoundary State.reset ∧ decOpenFrom [] State.reset.decRes = [] := by decide

/-- `Obligations.WrittenCommandsReadBack`: a character, and numbers on both sides of 255. -/
theorem witness_written :
    'f'.toNat < 128 ∧ readNumber ['2', '5', '5'] = some 255 ∧ readNumber ['2', '5', '6'] = some 256 ∧
    (Written.decPush, Instr.decPush) ∈ [(Written.encPush, Instr.encPush), (.decPush, .decPush)] :=
  ⟨by decide, by decide, by decide, .tail _ (.head _)⟩

end Sys2Proof.Tests
end

/-! SUPPORT. The scope family (00_scope.md): the independence of the two units, 00 R2. -/

namespace Sys2Proof.Machine

variable {s t u : State} {m : HostMove} {ms : List HostMove} {p q : Port} {w : CmdWord} {i : Instr}

/-! ### What a word and a move can do -/

/-- The decoder gives a word on a port a command of that port (30 R50). -/
theorem port_of_decode (h : decode p w = .ok i) : i.port = p := by
  unfold decode at h
  split_ifs at h
  · cases p <;> cases h <;> rfl
  · cases p <;> cases h <;> rfl
  · cases p <;> cases h <;> rfl

/-- A move that goes on is a reset, or a word that decodes to a command of its port, which then runs. -/
theorem runMove_cases (h : runMove m s = .next t) :
    (m = .rst ∧ t = s.applyRst) ∨
    (∃ p w i, m = .word p w ∧ decode p w = .ok i ∧ i.port = p ∧ exec i s = .next t) := by
  cases m with
  | rst => cases h; exact .inl ⟨rfl, rfl⟩
  | word p w =>
    simp only [runMove, runWord] at h
    split at h
    case h_1 i hi => exact .inr ⟨p, w, i, rfl, hi, port_of_decode hi, h⟩
    case h_2 => cases h

/-- A word that decodes runs its command. -/
theorem runMove_word_of_decode (h : decode p w = .ok i) (s : State) : runMove (.word p w) s = exec i s := by
  simp only [runMove, runWord, h]

/-- A run of moves goes on exactly when its first move does and the rest go on from there. -/
theorem runMoves_cons_eq_next_iff :
    runMoves (m :: ms) s = .next t ↔ ∃ v, runMove m s = .next v ∧ runMoves ms v = .next t := by
  rw [runMoves]
  cases runMove m s <;> simp

/-! ### The moves that concern one unit -/

@[simp] theorem movesFor_rst_cons : movesFor p (.rst :: ms) = .rst :: movesFor p ms := rfl

@[simp] theorem movesFor_word_cons_self : movesFor p (.word p w :: ms) = .word p w :: movesFor p ms := by
  simp [movesFor]

theorem movesFor_word_cons_of_ne (h : q ≠ p) : movesFor p (.word q w :: ms) = movesFor p ms := by
  simp [movesFor, h]

/-! ### Two states that one unit cannot tell apart -/

/-- The unit on a port has the same registers and the same history of its result port in both states. -/
def SameUnit : Port → State → State → Prop
  | .enc, s, u => u.toEncUnit = s.toEncUnit ∧ u.encRes = s.encRes
  | .dec, s, u => u.toDecUnit = s.toDecUnit ∧ u.decRes = s.decRes

theorem sameUnit_enc_iff : SameUnit .enc s u ↔ sameEncRegs s u ∧ u.encRes = s.encRes := by
  rw [sameEncRegs_iff, SameUnit]

theorem sameUnit_dec_iff : SameUnit .dec s u ↔ sameDecRegs s u ∧ u.decRes = s.decRes := by
  rw [sameDecRegs_iff, SameUnit]

theorem SameUnit.refl (p : Port) (s : State) : SameUnit p s s := by
  cases p <;> exact ⟨rfl, rfl⟩

theorem SameUnit.trans (h : SameUnit p s t) (h' : SameUnit p t u) : SameUnit p s u := by
  cases p <;> exact ⟨h'.1.trans h.1, h'.2.trans h.2⟩

/-- `RST` acts on each unit by itself (70 R170, R171). -/
theorem SameUnit.applyRst (h : SameUnit p s u) : SameUnit p s.applyRst u.applyRst := by
  cases p with
  | enc => simp [SameUnit, h.2]
  | dec => simp [SameUnit, h.2]

/-- A unit's own command reads and writes this unit alone (40 R82, 41 R107). -/
theorem SameUnit.exec_own (h : SameUnit i.port s u) (hs : exec i s = .next t) :
    ∃ v, exec i u = .next v ∧ SameUnit i.port t v := by
  cases hp : i.port with
  | enc =>
    obtain ⟨f, hf⟩ := exec_enc hp
    rw [hf] at hs
    cases hs
    obtain ⟨hreg, hres⟩ := hp ▸ h
    exact ⟨_, hf u, by simp [SameUnit, hreg, hres]⟩
  | dec =>
    obtain ⟨f, hf⟩ := exec_dec hp
    rw [hf] at hs
    cases hs
    obtain ⟨hreg, hres⟩ := hp ▸ h
    exact ⟨_, hf u, by simp [SameUnit, hreg, hres]⟩

/-- A command leaves the other unit and its result port alone. -/
theorem SameUnit.of_exec_other (h : i.port ≠ p) (hs : exec i s = .next t) : SameUnit p t s := by
  cases hp : i.port with
  | enc =>
    obtain ⟨f, hf⟩ := exec_enc hp
    rw [hf] at hs
    cases hs
    cases p
    · exact absurd hp h
    · exact ⟨rfl, rfl⟩
  | dec =>
    obtain ⟨f, hf⟩ := exec_dec hp
    rw [hf] at hs
    cases hs
    cases p
    · exact ⟨rfl, rfl⟩
    · exact absurd hp h

/-- A run and, from a state that one unit cannot tell from its start, the run of only this unit's moves: the second goes
to its end too, and the unit cannot tell the two ends apart. -/
theorem SameUnit.runMoves_movesFor (h : SameUnit p s u) (hr : runMoves ms s = .next t) :
    ∃ v, runMoves (movesFor p ms) u = .next v ∧ SameUnit p t v := by
  induction ms generalizing s u with
  | nil =>
    cases hr
    exact ⟨u, rfl, h⟩
  | cons m ms ih =>
    obtain ⟨s', hm, hr'⟩ := runMoves_cons_eq_next_iff.mp hr
    obtain ⟨rfl, rfl⟩ | ⟨q, w, i, rfl, hd, rfl, he⟩ := runMove_cases hm
    · rw [movesFor_rst_cons]
      exact ih h.applyRst hr'
    · by_cases hq : i.port = p
      · subst hq
        obtain ⟨u', hu', h'⟩ := h.exec_own he
        obtain ⟨v, hv, hsame⟩ := ih h' hr'
        rw [movesFor_word_cons_self]
        exact ⟨v, runMoves_cons_eq_next_iff.mpr ⟨u', (runMove_word_of_decode hd u).trans hu', hv⟩, hsame⟩
      · rw [movesFor_word_cons_of_ne hq]
        exact ih ((SameUnit.of_exec_other hq he).trans h) hr'

/-- Settles O42: from one start the run and the run of one unit's moves go on in lockstep as far as this unit can tell,
by induction over the moves. -/
theorem unitsAreIndependent : Obligations.UnitsAreIndependent := fun s _ _ hr =>
  have side (p : Port) := (SameUnit.refl p s).runMoves_movesFor hr
  have ⟨u, hu, henc⟩ := side .enc
  have ⟨v, hv, hdec⟩ := side .dec
  ⟨⟨u, hu, sameUnit_enc_iff.mp henc⟩, ⟨v, hv, sameUnit_dec_iff.mp hdec⟩⟩

end Sys2Proof.Machine

/-! SUPPORT. The memory family (20_memory.md): the lanes of the accumulators, R36 and R37, and the two character tables,
R31 to R33. -/

namespace Sys2Proof.Machine

/-! ### An element in a lane of an accumulator

A lane of an `n`-bit accumulator is `w` bits from bit `p` up; an element is placed in it by `|||` with the element
shifted to bit `p`. -/

section Lane

variable {n w p : Nat}

/-- An element shifted to bit `p` occupies its lane and no other bit. -/
theorem getLsbD_setWidth_shiftLeft (hp : p + w ≤ n) (v : BitVec w) (k : Nat) :
    (v.setWidth n <<< p).getLsbD k = (decide (p ≤ k) && v.getLsbD (k - p)) := by
  have hin : v.getLsbD (k - p) = true → k < n ∧ k - p < n := fun h => by
    have hk : k - p < w := BitVec.lt_of_getLsbD h
    omega
  rw [BitVec.getLsbD_shiftLeft, BitVec.getLsbD_setWidth, Bool.eq_iff_iff]
  simp only [Bool.and_eq_true, Bool.not_eq_true', decide_eq_true_eq, decide_eq_false_iff_not, not_lt]
  tauto

theorem extractLsb'_setWidth_shiftLeft (hp : p + w ≤ n) (v : BitVec w) :
    (v.setWidth n <<< p).extractLsb' p w = v := by
  ext k hk
  rw [BitVec.getElem_extractLsb', getLsbD_setWidth_shiftLeft hp]
  simp [hk]

/-- An element placed into an empty lane is what the lane then holds. -/
theorem extractLsb'_or_setWidth_shiftLeft (hp : p + w ≤ n) {acc : BitVec n} (h : acc.extractLsb' p w = 0)
    (v : BitVec w) : (acc ||| v.setWidth n <<< p).extractLsb' p w = v := by
  rw [BitVec.extractLsb'_or, h, extractLsb'_setWidth_shiftLeft hp]
  exact BitVec.zero_or

/-- An element placed into a lane changes no bit outside it. -/
theorem getLsbD_or_setWidth_shiftLeft_of_outside (hp : p + w ≤ n) (acc : BitVec n) (v : BitVec w) {k : Nat}
    (hk : k < p ∨ p + w ≤ k) : (acc ||| v.setWidth n <<< p).getLsbD k = acc.getLsbD k := by
  rw [BitVec.getLsbD_or, getLsbD_setWidth_shiftLeft hp]
  obtain hk | hk := hk
  · simp [Nat.not_le.mpr hk]
  · simp [BitVec.getLsbD_of_ge v (k - p) (Nat.le_sub_of_add_le' hk)]

/-- Shifting a lane down and masking it, as the drains do, reads exactly the lane. -/
theorem setWidth_ushiftRight_and_mask {mask : BitVec n} (hm : mask.setWidth w = BitVec.allOnes w) (acc : BitVec n) :
    ((acc >>> p) &&& mask).setWidth w = acc.extractLsb' p w := by
  rw [BitVec.setWidth_and, hm, BitVec.and_allOnes, BitVec.setWidth_ushiftRight_eq_extractLsb]

end Lane

/-! ### The byte lanes (20 R36) and the group lanes (20 R37) -/

theorem byteLane_fits (i : Fin 5) : 32 - 8 * i.val + 8 ≤ 40 := by omega

theorem groupLane_fits (j : Fin 8) : 35 - 5 * j.val + 5 ≤ 40 := by omega

theorem encPlace_lane {acc : Acc} {i : Fin 5} (h : acc.extractLsb' (32 - 8 * i.val) 8 = 0) (d : Byte) :
    (encPlace acc i d).extractLsb' (32 - 8 * i.val) 8 = d :=
  extractLsb'_or_setWidth_shiftLeft (byteLane_fits i) h d

theorem encPlace_getLsbD_of_outside (acc : Acc) (i : Fin 5) (d : Byte) {k : Nat}
    (hk : k < 32 - 8 * i.val ∨ 39 - 8 * i.val < k) : (encPlace acc i d).getLsbD k = acc.getLsbD k :=
  getLsbD_or_setWidth_shiftLeft_of_outside (byteLane_fits i) acc d (by omega)

theorem decPlace_lane {acc : Acc} {j : Fin 8} (h : acc.extractLsb' (35 - 5 * j.val) 5 = 0) (v : Index) :
    (decPlace acc j v).extractLsb' (35 - 5 * j.val) 5 = v :=
  extractLsb'_or_setWidth_shiftLeft (groupLane_fits j) h v

theorem decPlace_getLsbD_of_outside (acc : Acc) (j : Fin 8) (v : Index) {k : Nat}
    (hk : k < 35 - 5 * j.val ∨ 39 - 5 * j.val < k) : (decPlace acc j v).getLsbD k = acc.getLsbD k :=
  getLsbD_or_setWidth_shiftLeft_of_outside (groupLane_fits j) acc v (by omega)

theorem encGroup_eq_extractLsb' (acc : Acc) (j : Nat) : encGroup acc j = acc.extractLsb' (35 - 5 * j) 5 :=
  setWidth_ushiftRight_and_mask rfl acc

theorem decByte_eq_extractLsb' (acc : Acc) (k : Nat) : decByte acc k = acc.extractLsb' (32 - 8 * k) 8 :=
  setWidth_ushiftRight_and_mask rfl acc

/-- Settles O16, from the rules of a lane at any place of any accumulator. -/
theorem lanesOfTheAccumulators : Obligations.LanesOfTheAccumulators :=
  ⟨fun acc i d h => ⟨encPlace_lane h d, fun _ hk => encPlace_getLsbD_of_outside acc i d hk⟩,
    fun acc j v h => ⟨decPlace_lane h v, fun _ hk => decPlace_getLsbD_of_outside acc j v hk⟩,
    fun acc j => encGroup_eq_extractLsb' acc j.val,
    fun acc k => decByte_eq_extractLsb' acc k.val⟩

/-! ### The alphabet (20 R31, R32) -/

/-- The 32 entries of `ALPHA`. -/
theorem alpha_toNat : ∀ i : Index,
    (alpha i).toNat = if i.toNat ≤ 25 then 0x61 + i.toNat else 0x32 + (i.toNat - 26) := by decide

/-- The digits stand below the letters, so an entry of `ALPHA` tells its index. -/
theorem alpha_injective : Function.Injective alpha := fun i j h => by
  have hij := congrArg BitVec.toNat h
  rw [alpha_toNat, alpha_toNat] at hij
  apply BitVec.eq_of_toNat_eq
  split_ifs at hij <;> omega

theorem alpha_toNat_lt (i : Index) : (alpha i).toNat < 0x80 := by
  have hi : i.toNat < 32 := i.isLt
  rw [alpha_toNat]
  split_ifs <;> omega

/-- Settles O19: from the closed form, which is checked entry by entry. -/
theorem alphabetTable : Obligations.AlphabetTable :=
  ⟨alpha_toNat, fun _ _ h => alpha_injective h, alpha_toNat_lt⟩

/-! ### The reversal table (20 R33) -/

/-- The index of a code in a range of codes that starts at `a` and has at most 32 codes. -/
theorem toNat_setWidth_sub {a c : CharCode} (hac : a.toNat ≤ c.toNat) (hlt : c.toNat < a.toNat + 32) :
    ((c - a).setWidth 5).toNat = c.toNat - a.toNat := by
  rw [BitVec.toNat_setWidth, BitVec.toNat_sub_of_le (BitVec.le_def.mpr hac), Nat.mod_eq_of_lt (by omega)]

/-- `REV` in closed form: the comparisons and the subtraction of codes are those of their numbers. -/
theorem map_toNat_rev (c : CharCode) : (rev c).map BitVec.toNat =
    if 0x41 ≤ c.toNat ∧ c.toNat ≤ 0x5A then some (c.toNat - 0x41)
    else if 0x61 ≤ c.toNat ∧ c.toNat ≤ 0x7A then some (c.toNat - 0x61)
    else if 0x32 ≤ c.toNat ∧ c.toNat ≤ 0x37 then some (c.toNat - 0x32 + 26)
    else none := by
  simp only [rev, BitVec.le_def, BitVec.toNat_ofNat, Nat.reducePow, Nat.reduceMod]
  split_ifs with hupper hlower hdigit
  · exact congrArg some (toNat_setWidth_sub hupper.1 (Nat.lt_of_le_of_lt hupper.2 (by decide)))
  · exact congrArg some (toNat_setWidth_sub hlower.1 (Nat.lt_of_le_of_lt hlower.2 (by decide)))
  · exact congrArg some (by bv_omega)
  · rfl

/-- The valid codes are the letters of both cases and the digits `2` to `7`. -/
theorem rev_isSome_iff (c : CharCode) : (rev c).isSome = true ↔
    (0x41 ≤ c.toNat ∧ c.toNat ≤ 0x5A) ∨ (0x61 ≤ c.toNat ∧ c.toNat ≤ 0x7A) ∨ (0x32 ≤ c.toNat ∧ c.toNat ≤ 0x37) := by
  rw [← Option.isSome_map (f := BitVec.toNat), map_toNat_rev]
  split_ifs <;> simp [*]

/-- The valid codes are 26 capital letters, 26 small letters and 6 digits. -/
theorem countP_rev_isSome : (List.range 256).countP (fun n => (rev (BitVec.ofNat 8 n)).isSome) = 58 := by
  have hvalid : (Finset.range 256).filter (fun n => (rev (BitVec.ofNat 8 n)).isSome = true) =
      Finset.Icc 0x41 0x5A ∪ (Finset.Icc 0x61 0x7A ∪ Finset.Icc 0x32 0x37) := by
    ext n
    simp only [Finset.mem_filter, Finset.mem_range, rev_isSome_iff, BitVec.toNat_ofNat, Finset.mem_union,
      Finset.mem_Icc]
    omega
  have hlower : Disjoint (Finset.Icc 0x61 0x7A) (Finset.Icc 0x32 0x37) := by
    simp only [Finset.disjoint_left, Finset.mem_Icc]
    omega
  have hupper : Disjoint (Finset.Icc 0x41 0x5A) (Finset.Icc 0x61 0x7A ∪ Finset.Icc 0x32 0x37) := by
    simp only [Finset.disjoint_left, Finset.mem_union, Finset.mem_Icc]
    omega
  calc (List.range 256).countP (fun n => (rev (BitVec.ofNat 8 n)).isSome)
      = Nat.count (fun n => (rev (BitVec.ofNat 8 n)).isSome = true) 256 := by
        simp only [Nat.count, Bool.decide_eq_true]
    _ = (Finset.Icc 0x41 0x5A ∪ (Finset.Icc 0x61 0x7A ∪ Finset.Icc 0x32 0x37)).card := by
        rw [Nat.count_eq_card_filter_range, hvalid]
    _ = 58 := by
        rw [Finset.card_union_of_disjoint hupper, Finset.card_union_of_disjoint hlower]
        simp only [Nat.card_Icc]

/-- The other codes are invalid. -/
theorem countP_rev_isNone : (List.range 256).countP (fun n => (rev (BitVec.ofNat 8 n)).isNone) = 198 := by
  have hsplit := List.length_eq_countP_add_countP (fun n => (rev (BitVec.ofNat 8 n)).isSome) (l := List.range 256)
  rw [countP_rev_isSome, List.length_range] at hsplit
  simp only [Bool.not_eq_true, Option.isSome_eq_false_iff, Bool.decide_eq_true] at hsplit
  omega

/-- Settles O20: the closed form decides which codes are valid, and so how many. -/
theorem reverseTable : Obligations.ReverseTable :=
  ⟨map_toNat_rev, countP_rev_isSome, countP_rev_isNone⟩

end Sys2Proof.Machine

/-! SUPPORT. The encoding family (30_encoding.md): command words and the opcode table, R50 to R54; the words of the
result beats, R56 to R58. -/

namespace Sys2Proof.Machine

variable {s t : State} {p : Port} {w : CmdWord} {i : Instr}

/-! ### The two fields of a command word (30 R50) -/

@[simp] theorem opField_cmdWord (op : BitVec 2) (d : BitVec 8) : opField (cmdWord op d) = op :=
  BitVec.setWidth_ushiftRight_eq_extractLsb.trans BitVec.extractLsb'_append_eq_left

@[simp] theorem dataField_cmdWord (op : BitVec 2) (d : BitVec 8) : dataField (cmdWord op d) = d :=
  BitVec.setWidth_append_eq_right

theorem toNat_cmdWord (op : BitVec 2) (d : BitVec 8) : (cmdWord op d).toNat = 256 * op.toNat + d.toNat := by
  rw [cmdWord, BitVec.toNat_append, ← Nat.shiftLeft_add_eq_or_of_lt d.isLt, Nat.shiftLeft_eq, Nat.mul_comm]

theorem toNat_opField (w : CmdWord) : (opField w).toNat = w.toNat / 256 := by
  have hw : w.toNat < 1024 := w.isLt
  rw [opField, BitVec.toNat_setWidth, BitVec.toNat_ushiftRight, Nat.shiftRight_eq_div_pow]
  omega

theorem toNat_dataField (w : CmdWord) : (dataField w).toNat = w.toNat % 256 := BitVec.toNat_setWidth ..

/-- A word is laid out from its two fields. -/
theorem cmdWord_opField_dataField (w : CmdWord) : cmdWord (opField w) (dataField w) = w := by
  apply BitVec.eq_of_toNat_eq
  rw [toNat_cmdWord, toNat_opField, toNat_dataField, Nat.div_add_mod]

theorem cmdWord_eq_iff {op : BitVec 2} {d : BitVec 8} : cmdWord op d = w ↔ opField w = op ∧ dataField w = d := by
  constructor
  · rintro rfl
    simp
  · rintro ⟨rfl, rfl⟩
    exact cmdWord_opField_dataField w

/-! ### What the decoder reads (30 R51, R52, R54) -/

/-- The decoder reads a command from exactly the command's own word on its own port. -/
theorem decode_eq_ok_iff : decode p w = .ok i ↔ i.port = p ∧ encode i = w := by
  constructor
  · intro h
    refine ⟨port_of_decode h, ?_⟩
    unfold decode at h
    split_ifs at h with hpush hpushl hop hend
    · cases p <;> cases h <;> exact cmdWord_eq_iff.mpr ⟨hpush, rfl⟩
    · cases p <;> cases h <;> exact cmdWord_eq_iff.mpr ⟨hpushl, rfl⟩
    · cases p <;> cases h <;> exact cmdWord_eq_iff.mpr ⟨hop, hend⟩
  · rintro ⟨rfl, rfl⟩
    cases i <;> simp [decode, encode, Instr.port]

/-- What a word names, by its number: up to 511 a command with a datum, from 256 one that ends a message, above 512
none. -/
theorem decode_cases (p : Port) (w : CmdWord) :
    (w.toNat ≤ 512 ∧ ∃ i, decode p w = .ok i ∧ i.datum.isSome = decide (w.toNat < 512) ∧
      i.endsMessage = decide (256 ≤ w.toNat)) ∨
    (512 < w.toNat ∧ ∃ why, decode p w = .error why) := by
  have hop := toNat_opField w
  have hdata := toNat_dataField w
  unfold decode
  split_ifs with hpush hpushl hend hzero
  · rw [hpush] at hop
    have hw : w.toNat < 256 := by bv_omega
    refine .inl ⟨by omega, ?_⟩
    rw [decide_eq_true (by omega : w.toNat < 512), decide_eq_false (by omega : ¬ 256 ≤ w.toNat)]
    cases p <;> exact ⟨_, rfl, rfl, rfl⟩
  · rw [hpushl] at hop
    have hw : 256 ≤ w.toNat ∧ w.toNat < 512 := by bv_omega
    refine .inl ⟨by omega, ?_⟩
    rw [decide_eq_true hw.1, decide_eq_true hw.2]
    cases p <;> exact ⟨_, rfl, rfl, rfl⟩
  · rw [hend] at hop
    rw [hzero] at hdata
    have hw : w.toNat = 512 := by bv_omega
    refine .inl ⟨hw.le, ?_⟩
    rw [hw]
    cases p <;> exact ⟨_, rfl, rfl, rfl⟩
  · rw [hend] at hop
    exact .inr ⟨by bv_omega, _, rfl⟩
  · exact .inr ⟨by bv_omega, _, rfl⟩

/-- A word names a command exactly when the admission check lets it pass (30 R54). -/
theorem admissible_iff_exists_decode_eq_ok (p : Port) :
    CmdWord.admissible w = true ↔ ∃ i, decode p w = .ok i := by
  rw [CmdWord.admissible, decide_eq_true_iff]
  obtain ⟨hw, i, hd, -⟩ | ⟨hw, why, hd⟩ := decode_cases p w
  · exact iff_of_true hw ⟨i, hd⟩
  · exact iff_of_false (by omega) (by simp [hd])

theorem exists_decode_eq_error_iff (p : Port) : (∃ why, decode p w = .error why) ↔ 512 < w.toNat := by
  rw [← not_iff_not, not_lt, ← decide_eq_true_iff (p := w.toNat ≤ 512), ← CmdWord.admissible,
    admissible_iff_exists_decode_eq_ok p]
  cases decode p w <;> simp

/-! ### Reserved words are refused (30 R54, 60 R151) -/

theorem step_of_pending_word {ms : List HostMove} (h : s.pending = .word p w :: ms) :
    step s = runWord p w (s.setPending ms) := by
  simp only [step, h, runMove]

/-- The next word is refused exactly when the decoder names its reserved class. -/
theorem step_eq_refused_iff {ms : List HostMove} {why : ReservedWord} (h : s.pending = .word p w :: ms) :
    step s = .refused (.reservedCommandWord p why w) ↔ decode p w = .error why := by
  constructor
  · intro hs
    obtain ⟨_, _, _, _, -, hd, hr⟩ := step_refused_cases hs
    cases hr
    exact hd
  · intro hd
    rw [step_of_pending_word h, runWord, hd]

/-- Settles O3: the decoder refuses exactly the words above `0x200`, and a step refuses what the decoder does. -/
theorem reservedWordsAreRefused : Obligations.ReservedWordsAreRefused := by
  intro s p w ms h
  refine ⟨?_, ?_⟩
  · have hw : w.toNat < 1024 := w.isLt
    simp only [step_eq_refused_iff h, exists_decode_eq_error_iff]
    omega
  · rw [admissible_iff_exists_decode_eq_ok p]
    exact exists_congr fun i => ⟨fun hd => ⟨hd, (decode_eq_ok_iff.mp hd).symm⟩, fun hd => hd.1⟩

/-! ### The opcode table (30 R52) -/

theorem fits_iff {r : OpcodeRow} : r.fits p w = true ↔ r.port = p ∧ w &&& r.mask = r.value := by
  simp [OpcodeRow.fits]

/-- The mask of a row with a datum keeps exactly the `op` field. -/
theorem and_opMask (w : CmdWord) : w &&& 0x300#10 = cmdWord (opField w) 0#8 := by
  have hmask : 0x300#10 = BitVec.allOnes 2 ++ 0#8 := rfl
  conv_lhs => rw [← cmdWord_opField_dataField w, cmdWord, hmask]
  rw [BitVec.and_append, BitVec.and_allOnes, BitVec.and_zero, cmdWord]

theorem and_opMask_eq_iff {op : BitVec 2} : w &&& 0x300#10 = cmdWord op 0#8 ↔ opField w = op := by
  rw [and_opMask, cmdWord_eq_iff, opField_cmdWord, dataField_cmdWord]
  exact ⟨fun h => h.1.symm, fun h => ⟨h.symm, rfl⟩⟩

/-- A word that fits a command's row and carries its datum is the command's word on its port. -/
theorem fits_opcodeRow_and_datum_iff : ((opcodeRow i).fits p w = true ∧ ∀ d ∈ i.datum, dataField w = d) ↔
    i.port = p ∧ encode i = w := by
  have hend : w &&& 0x3FF#10 = 0x200#10 ↔ cmdWord 2#2 0#8 = w := by
    rw [show 0x3FF#10 = BitVec.allOnes 10 from rfl, BitVec.and_allOnes, eq_comm]
    rfl
  have hrow (q : Port) (op : BitVec 2) (d : BitVec 8) :
      ((q = p ∧ w &&& 0x300#10 = cmdWord op 0#8) ∧ ∀ e ∈ some d, dataField w = e) ↔ q = p ∧ cmdWord op d = w := by
    rw [and_opMask_eq_iff, cmdWord_eq_iff]
    simp [and_assoc, eq_comm]
  rw [fits_iff]
  cases i with
  | encPush d => exact hrow .enc 0#2 d
  | encPushl d => exact hrow .enc 1#2 d
  | encEnd => simp [opcodeRow, Instr.datum, Instr.port, encode, hend]
  | decPush c => exact hrow .dec 0#2 c
  | decPushl c => exact hrow .dec 1#2 c
  | decEnd => simp [opcodeRow, Instr.datum, Instr.port, encode, hend]

/-- What tells two rows of the table apart: the port and the `op` field. -/
def rowKey (r : OpcodeRow) : Port × BitVec 2 := (r.port, opField r.value)

/-- Every row's mask covers the `op` field. -/
theorem opField_mask_of_mem {r : OpcodeRow} (h : r ∈ opcodeTable) : opField r.mask = BitVec.allOnes 2 := by
  revert r
  decide

theorem rowKey_of_fits {r : OpcodeRow} (hr : r ∈ opcodeTable) (h : r.fits p w = true) : rowKey r = (p, opField w) := by
  obtain ⟨hport, hvalue⟩ := fits_iff.mp h
  have hop : opField (w &&& r.mask) = opField w &&& opField r.mask := by
    simp only [opField, BitVec.ushiftRight_and_distrib, BitVec.setWidth_and]
  rw [rowKey, hport, ← hvalue, hop, opField_mask_of_mem hr, BitVec.and_allOnes]

/-- A word fits at most one row of the table: the rows differ in port or `op` field. -/
theorem countP_fits_le_one (p : Port) (w : CmdWord) : opcodeTable.countP (fun r => r.fits p w) ≤ 1 := by
  have hnodup : (opcodeTable.map rowKey).Nodup := by decide
  calc opcodeTable.countP (fun r => r.fits p w)
      ≤ opcodeTable.countP (fun r => rowKey r == (p, opField w)) :=
        List.countP_mono_left fun r hr h => by simpa using rowKey_of_fits hr h
    _ = (opcodeTable.map rowKey).count (p, opField w) := by rw [List.count, List.countP_map]; rfl
    _ ≤ 1 := List.nodup_iff_count_le_one.mp hnodup _

/-- How many numbers below `n` have a property that says they lie from `a` up to `b`. -/
theorem countP_range_of_iff {f : Nat → Bool} {a b n : Nat} (hb : b ≤ n)
    (h : ∀ k < n, f k = true ↔ a ≤ k ∧ k < b) : (List.range n).countP f = b - a := by
  have hfilter : (Finset.range n).filter (fun k => f k = true) = Finset.Ico a b := by
    ext k
    rw [Finset.mem_filter, Finset.mem_range, Finset.mem_Ico]
    exact ⟨fun hk => (h k hk.1).mp hk.2, fun hk => ⟨by omega, (h k (by omega)).mpr hk⟩⟩
  rw [← Nat.card_Ico, ← hfilter, ← Nat.count_eq_card_filter_range]
  simp [Nat.count]

/-- Settles O2: the row of a command and its datum say its word; the rows differ in port or `op` field; the four kinds of
words are four intervals. -/
theorem opcodeTableNamesCommands : Obligations.OpcodeTableNamesCommands := by
  refine ⟨fun p w i => decode_eq_ok_iff.trans fits_opcodeRow_and_datum_iff.symm, countP_fits_le_one, fun p =>
    ⟨countP_range_of_iff (a := 0) (b := 256) (by decide) fun n hn => ?_,
      countP_range_of_iff (a := 256) (b := 512) (by decide) fun n hn => ?_,
      countP_range_of_iff (a := 512) (b := 513) (by decide) fun n hn => ?_,
      countP_range_of_iff (a := 513) (b := 1024) (by decide) fun n hn => ?_⟩⟩
  all_goals
    have hval : (BitVec.ofNat 10 n).toNat = n := Nat.mod_eq_of_lt hn
    have kinds := decode_cases p (BitVec.ofNat 10 n)
    rw [hval] at kinds
    obtain ⟨hw, i, hd, hdatum, hends⟩ | ⟨hw, why, hd⟩ := kinds
    · simp only [hd, ← Option.not_isSome, hdatum, hends, Bool.and_eq_true, Bool.not_eq_true', decide_eq_true_eq,
        decide_eq_false_iff_not, Bool.false_eq_true, false_iff]
      omega
    · simp only [hd, Bool.false_eq_true, false_iff, true_iff]
      omega

/-! ### The beats a command emits (30 R56 to R58) -/

theorem decEmits_commandDec_iff {r : DecUnit × List DecBeat} {bs : List DecBeat} :
    decEmits s (s.commandDec r) bs ↔ r.2 = bs := by
  rw [decEmits, State.commandDec_decRes, List.append_cancel_left_eq,
    List.map_inj_right fun _ _ h => Seen.beat.inj h]

/-- The beats that end an encoder message. -/
theorem mem_encEmit_append_done {acc : Acc} {n : Nat} {b : EncBeat} (h : b ∈ encEmit acc n ++ [.done .ok]) :
    b = .done .ok ∨ ∃ k, b = .char (alpha k) := by
  obtain h | h := List.mem_append.mp h
  · exact .inr (mem_encEmit h)
  · exact .inl (List.mem_singleton.mp h)

/-- A command of the encoder emits characters of the alphabet and `DONE(OK)` (30 R56). -/
theorem exec_enc_beats (h : i.port = .enc) (s : State) : ∃ r : EncUnit × List EncBeat,
    exec i s = .next (s.commandEnc r) ∧ ∀ b ∈ r.2, b = .done .ok ∨ ∃ k, b = .char (alpha k) := by
  cases i with
  | encPush d =>
    refine ⟨s.toEncUnit.push d, rfl, fun b hb => ?_⟩
    obtain ⟨-, hr⟩ | ⟨-, hr⟩ := s.toEncUnit.push_cases d
    · rw [hr] at hb
      exact .inr (mem_encEmit hb)
    · rw [hr] at hb
      cases hb
  | encPushl d => exact ⟨s.toEncUnit.pushl d, rfl, fun _ => mem_encEmit_append_done⟩
  | encEnd => exact ⟨s.toEncUnit.endMessage, rfl, fun _ => mem_encEmit_append_done⟩
  | decPush | decPushl | decEnd => cases h

/-- The three kinds of beats of the decoder (30 R57). -/
def IsDecBeat (b : DecBeat) : Prop :=
  (∃ v, b = .byte v) ∨ b = .done .ok 0 0 ∨ ∃ c p, b = .done .invalidCharacter c p

/-- The beats that end a decoder message without an error. -/
theorem isDecBeat_of_mem_decEmit_append_done {acc : Acc} {n : Nat} {b : DecBeat}
    (h : b ∈ decEmit acc n ++ [.done .ok 0 0]) : IsDecBeat b := by
  obtain h | h := List.mem_append.mp h
  · exact .inl (mem_decEmit h)
  · exact .inr (.inl (List.mem_singleton.mp h))

/-- The beat that ends a decoder message with an error. -/
theorem isDecBeat_of_mem_done_invalidCharacter {c : CharCode} {p : Nat} {b : DecBeat}
    (h : b ∈ [DecBeat.done .invalidCharacter c p]) : IsDecBeat b :=
  .inr (.inr ⟨c, p, List.mem_singleton.mp h⟩)

theorem isDecBeat_of_mem_push {u : DecUnit} {c : CharCode} {b : DecBeat} (h : b ∈ (u.push c).2) : IsDecBeat b := by
  obtain ⟨-, hr⟩ | ⟨-, -, hr⟩ | ⟨-, v, -, hr⟩ := u.push_cases c
  · rw [hr] at h
    cases h
  · rw [hr] at h
    cases h
  · obtain ⟨-, ha⟩ | ⟨-, ha⟩ := u.accept_cases v
    · rw [hr, ha] at h
      exact .inl (mem_decEmit h)
    · rw [hr, ha] at h
      cases h

theorem isDecBeat_of_mem_pushl {u : DecUnit} {c : CharCode} {b : DecBeat} (h : b ∈ (u.pushl c).2) : IsDecBeat b := by
  obtain ⟨-, hr⟩ | ⟨-, -, hr⟩ | ⟨-, v, -, hr⟩ := u.pushl_cases c
  · exact isDecBeat_of_mem_done_invalidCharacter (hr ▸ h)
  · exact isDecBeat_of_mem_done_invalidCharacter (hr ▸ h)
  · exact isDecBeat_of_mem_decEmit_append_done (hr ▸ h)

theorem isDecBeat_of_mem_endMessage {u : DecUnit} {b : DecBeat} (h : b ∈ u.endMessage.2) : IsDecBeat b := by
  obtain ⟨-, hr⟩ | ⟨-, hr⟩ := u.endMessage_cases
  · exact isDecBeat_of_mem_done_invalidCharacter (hr ▸ h)
  · exact isDecBeat_of_mem_decEmit_append_done (hr ▸ h)

/-- A command of the decoder emits only beats of the three kinds (30 R57). -/
theorem exec_dec_beats (h : i.port = .dec) (s : State) : ∃ r : DecUnit × List DecBeat,
    exec i s = .next (s.commandDec r) ∧ ∀ b ∈ r.2, IsDecBeat b := by
  cases i with
  | encPush | encPushl | encEnd => cases h
  | decPush c => exact ⟨s.toDecUnit.push c, rfl, fun _ => isDecBeat_of_mem_push⟩
  | decPushl c => exact ⟨s.toDecUnit.pushl c, rfl, fun _ => isDecBeat_of_mem_pushl⟩
  | decEnd => exact ⟨s.toDecUnit.endMessage, rfl, fun _ => isDecBeat_of_mem_endMessage⟩

/-! ### Which commands raise the exception (60 R140) -/

/-- A command's answer shows the exception: the decoder is FAULTED after it, or its only beat is the error. -/
def ShowsException (r : DecUnit × List DecBeat) : Prop :=
  r.1.decErr = true ∨ ∃ c p, r.2 = [.done .invalidCharacter c p]

/-- The end of a message with `DONE(OK)` shows no exception. -/
theorem not_showsException_of_done_ok (bs : List DecBeat) :
    ¬ ShowsException (DecUnit.reset, bs ++ [.done .ok 0 0]) := by
  rintro (h | ⟨c, p, h⟩)
  · cases h
  · have hmem : DecBeat.done .ok 0 0 ∈ [DecBeat.done .invalidCharacter c p] := h ▸ List.mem_append_right bs (.head _)
    simp at hmem

/-- Placing a valid index shows no exception. -/
theorem not_showsException_accept {u : DecUnit} (hu : u.decErr = false) (v : Index) : ¬ ShowsException (u.accept v) := by
  obtain ⟨-, hr⟩ | ⟨-, hr⟩ := u.accept_cases v
  · rw [hr]
    rintro (h | ⟨c, p, h⟩)
    · simp [hu] at h
    · have hlen : decBytes 8 = 1 := (decEmit_length ..).symm.trans (congrArg List.length h)
      exact absurd hlen (by decide)
  · simp [hr, ShowsException, hu]

theorem showsException_push_iff {u : DecUnit} (hu : u.decErr = false) (c : CharCode) :
    ShowsException (u.push c) ↔ rev c = none := by
  obtain ⟨he, -⟩ | ⟨-, hc, hr⟩ | ⟨-, v, hc, hr⟩ := u.push_cases c
  · simp [hu] at he
  · exact iff_of_true (.inl (by rw [hr]; rfl)) hc
  · exact iff_of_false (hr ▸ not_showsException_accept hu v) (by simp [hc])

theorem showsException_pushl_iff {u : DecUnit} (hu : u.decErr = false) (c : CharCode) :
    ShowsException (u.pushl c) ↔ rev c = none := by
  obtain ⟨he, -⟩ | ⟨-, hc, hr⟩ | ⟨-, v, hc, hr⟩ := u.pushl_cases c
  · simp [hu] at he
  · exact iff_of_true (.inr ⟨c, u.decIdx, by rw [hr]⟩) hc
  · exact iff_of_false (hr ▸ not_showsException_of_done_ok _) (by simp [hc])

theorem not_showsException_endMessage {u : DecUnit} (hu : u.decErr = false) : ¬ ShowsException u.endMessage := by
  obtain ⟨he, -⟩ | ⟨-, hr⟩ := u.endMessage_cases
  · simp [hu] at he
  · exact hr ▸ not_showsException_of_done_ok _

/-- Outside FAULTED a command sets `DEC.ERR` or emits exactly an error when it pushes an invalid character. -/
theorem exec_raises_iff (i : Instr) (hs : s.decErr = false) : ∃ t : State, exec i s = .next t ∧
    ((t.decErr = true ∨ ∃ c p, decEmits s t [.done .invalidCharacter c p]) ↔
      ∃ c, (i = .decPush c ∨ i = .decPushl c) ∧ rev c = none) := by
  have hdec (r : DecUnit × List DecBeat) : ((s.commandDec r).decErr = true ∨
      ∃ c p, decEmits s (s.commandDec r) [.done .invalidCharacter c p]) ↔ ShowsException r := by
    simp only [decEmits_commandDec_iff, State.commandDec_toDecUnit, ShowsException]
  cases hp : i.port with
  | enc =>
    obtain ⟨f, hf⟩ := exec_enc hp
    refine ⟨_, hf s, iff_of_false ?_ ?_⟩
    · simp [hs]
    · rintro ⟨c, rfl | rfl, -⟩ <;> cases hp
  | dec =>
    cases i with
    | encPush | encPushl | encEnd => cases hp
    | decPush c =>
      refine ⟨_, rfl, (hdec _).trans ((showsException_push_iff hs c).trans ?_)⟩
      simp
    | decPushl c =>
      refine ⟨_, rfl, (hdec _).trans ((showsException_pushl_iff hs c).trans ?_)⟩
      simp
    | decEnd =>
      refine ⟨_, rfl, (hdec _).trans (iff_of_false (not_showsException_endMessage hs) ?_)⟩
      simp

/-- The encoder's `DONE` beats carry only `OK`, the decoder's only `OK` or `InvalidCharacter` (30 R58). -/
theorem exec_done_status (i : Instr) (s : State) : ∃ t es ds, exec i s = .next t ∧ encEmits s t es ∧
    decEmits s t ds ∧ (∀ st, EncBeat.done st ∈ es → st = .ok) ∧
    (∀ st c p, DecBeat.done st c p ∈ ds → st = .ok ∨ st = .invalidCharacter) := by
  cases hp : i.port with
  | enc =>
    obtain ⟨r, hr, hbeats⟩ := exec_enc_beats hp s
    refine ⟨_, r.2, [], hr, rfl, (List.append_nil _).symm, fun st h => ?_, by simp⟩
    simpa using hbeats _ h
  | dec =>
    obtain ⟨r, hr, hbeats⟩ := exec_dec_beats hp s
    refine ⟨_, [], r.2, hr, (List.append_nil _).symm, rfl, by simp, fun st c p h => ?_⟩
    have hbeat := hbeats _ h
    simp only [IsDecBeat, DecBeat.done.injEq, reduceCtorEq] at hbeat
    tauto

/-- Settles O32: the exception shows in the answer of exactly the pushes of an invalid character, which `REV` counts. -/
theorem onlyInvalidCharactersRaise : Obligations.OnlyInvalidCharactersRaise := by
  refine ⟨fun i s => ?_, countP_rev_isNone, rfl, rfl, rfl, rfl, exec_done_status⟩
  cases hs : s.decErr with
  | false =>
    obtain ⟨t, ht, hiff⟩ := exec_raises_iff i hs
    exact ⟨t, ht, and_congr_right fun _ => hiff⟩
  | true =>
    obtain ⟨t, _, _, ht, -⟩ := exec_done_status i s
    exact ⟨t, ht, by simp⟩

/-! ### The fields of a beat's word (30 R56, R57) -/

@[simp] theorem Status.ofCode_code (st : Status) : Status.ofCode st.code = st := by
  cases st <;> rfl

theorem toNat_beatLow (st : Status) (d : Bool) (data : BitVec 8) :
    (beatLow st d data).toNat = 512 * st.code.toNat + 256 * d.toNat + data.toNat := by
  have hd : (BitVec.ofBool d).toNat < 2 ^ 1 := (BitVec.ofBool d).isLt
  rw [beatLow, BitVec.toNat_append, ← Nat.shiftLeft_add_eq_or_of_lt data.isLt, BitVec.toNat_append,
    ← Nat.shiftLeft_add_eq_or_of_lt hd, BitVec.toNat_ofBool]
  omega

section Fields

variable {m pos : Nat} {st : Status} {d : Bool} {data : BitVec 8} {w : BitVec m}
  (hw : w.toNat = 2048 * pos + (beatLow st d data).toNat)
include hw

theorem statusField_of_toNat : (w >>> 9).setWidth 2 = st.code := by
  rw [toNat_beatLow] at hw
  apply BitVec.eq_of_toNat_eq
  have hd := d.toNat_lt
  rw [BitVec.toNat_setWidth, BitVec.toNat_ushiftRight, Nat.shiftRight_eq_div_pow]
  omega

theorem doneField_of_toNat : w.getLsbD 8 = d := by
  rw [toNat_beatLow] at hw
  have hdone : d = decide (d.toNat = 1) := by cases d <;> rfl
  have hd := d.toNat_lt
  rw [BitVec.getLsbD, Nat.testBit_eq_decide_div_mod_eq, hdone, decide_eq_decide]
  omega

theorem dataField_of_toNat : w.setWidth 8 = data := by
  rw [toNat_beatLow] at hw
  apply BitVec.eq_of_toNat_eq
  rw [BitVec.toNat_setWidth]
  omega

theorem posField_of_toNat : (w >>> 11).toNat = pos := by
  have hlow : (beatLow st d data).toNat < 2048 := (beatLow st d data).isLt
  rw [BitVec.toNat_ushiftRight, Nat.shiftRight_eq_div_pow]
  omega

end Fields

/-! ### The words of `ENC.RES` (30 R56) -/

theorem EncBeat.toNat_word_char_eq (c : CharCode) :
    (EncBeat.char c).word.toNat = 2048 * 0 + (beatLow .ok false c).toNat := (Nat.zero_add _).symm

theorem EncBeat.toNat_word_done_eq (st : Status) :
    (EncBeat.done st).word.toNat = 2048 * 0 + (beatLow st true 0#8).toNat := (Nat.zero_add _).symm

theorem EncBeat.toNat_word_char (c : CharCode) : (EncBeat.char c).word.toNat = c.toNat := by
  rw [EncBeat.toNat_word_char_eq, toNat_beatLow]
  simp [Status.code]

theorem EncBeat.ofWord_word (b : EncBeat) : EncBeat.ofWord b.word = some b := by
  cases b with
  | char c =>
    have hw := EncBeat.toNat_word_char_eq c
    simp only [EncBeat.ofWord, statusField_of_toNat hw, doneField_of_toNat hw, dataField_of_toNat hw,
      Status.ofCode_code, Bool.false_eq_true, if_false, if_true]
  | done st =>
    have hw := EncBeat.toNat_word_done_eq st
    simp only [EncBeat.ofWord, statusField_of_toNat hw, doneField_of_toNat hw, dataField_of_toNat hw,
      Status.ofCode_code, if_true]

/-- A character's word has status `00` and no done bit; the word of `DONE(OK)` is `0x100`. -/
theorem EncBeat.word_status_and_done {b : EncBeat} (h : b = .done .ok ∨ ∃ k, b = .char (alpha k)) :
    b.word.extractLsb' 9 2 = 0 ∧ (b.word.getLsbD 8 = true → b.word = 0x100#11) := by
  obtain rfl | ⟨k, rfl⟩ := h
  · exact ⟨rfl, fun _ => rfl⟩
  · have hw := EncBeat.toNat_word_char_eq (alpha k)
    rw [← BitVec.setWidth_ushiftRight_eq_extractLsb, statusField_of_toNat hw, doneField_of_toNat hw]
    exact ⟨rfl, fun h => absurd h Bool.false_ne_true⟩

/-- Characters and the `DONE` after them close one message. -/
theorem encTextsFrom_chars_done (acc cs : List CharCode) (st : Status) :
    encTextsFrom acc ((cs.map EncBeat.char ++ [EncBeat.done st]).map .beat) = [acc ++ cs] := by
  induction cs generalizing acc with
  | nil => simp [encTextsFrom]
  | cons c cs ih => simpa [encTextsFrom] using ih (acc ++ [c])

/-- Settles O35: the fields of a beat's word determine the beat; a history is read up to its end and on from there. -/
theorem encoderBeatWords : Obligations.EncoderBeatWords := by
  refine ⟨EncBeat.toNat_word_char, rfl, EncBeat.ofWord_word, fun i s h => ?_, fun l cs => ?_⟩
  · obtain ⟨r, hr, hbeats⟩ := exec_enc_beats h s
    exact ⟨_, r.2, hr, rfl, fun b hb => EncBeat.word_status_and_done (hbeats b hb)⟩
  · rw [encTexts, encTextsFrom_append, encTextsFrom_chars_done, encTexts]

/-! ### The words of `DEC.RES` (30 R57) -/

theorem DecBeat.wordNat_eq (b : DecBeat) : b.wordNat = 2048 * b.posField + b.low.toNat := by
  rw [DecBeat.wordNat, ← Nat.shiftLeft_add_eq_or_of_lt b.low.isLt, Nat.shiftLeft_eq, Nat.mul_comm]

/-- A counter width that holds the position loses nothing (93 U2). -/
theorem DecBeat.toNat_word {n : Nat} {b : DecBeat} (h : b.posField < 2 ^ n) : (b.word n).toNat = b.wordNat := by
  rw [DecBeat.word, BitVec.toNat_append, BitVec.toNat_ofNat, Nat.mod_eq_of_lt h, DecBeat.wordNat]

theorem DecBeat.toNat_word_byte (n : Nat) (b : Byte) : ((DecBeat.byte b).word n).toNat = b.toNat := by
  rw [DecBeat.toNat_word (Nat.two_pow_pos n), DecBeat.wordNat_eq, DecBeat.low, toNat_beatLow]
  simp [Status.code, DecBeat.posField]

theorem DecBeat.toNat_word_done_ok (n : Nat) : ((DecBeat.done .ok 0 0).word n).toNat = 0x100 := by
  rw [DecBeat.toNat_word (Nat.two_pow_pos n)]
  rfl

theorem DecBeat.toNat_word_done_invalidCharacter {n p : Nat} (c : CharCode) (h : p < 2 ^ n) :
    ((DecBeat.done .invalidCharacter c p).word n).toNat = p <<< 11 ||| 0x300 ||| c.toNat := by
  have hlow : (DecBeat.done .invalidCharacter c p).low.toNat = 0x300 ||| c.toNat := BitVec.toNat_append ..
  rw [DecBeat.toNat_word h, DecBeat.wordNat, hlow, Nat.or_assoc, DecBeat.posField]

theorem DecBeat.ofWord_word {n : Nat} {b : DecBeat} (h : b.posField < 2 ^ n) : DecBeat.ofWord n (b.word n) = some b := by
  have hw := (DecBeat.toNat_word h).trans b.wordNat_eq
  cases b with
  | byte v =>
    simp only [DecBeat.ofWord, statusField_of_toNat hw, doneField_of_toNat hw, dataField_of_toNat hw,
      posField_of_toNat hw, DecBeat.posField, Status.ofCode_code, Bool.false_eq_true, and_self, if_false, if_true]
  | done st c p =>
    simp only [DecBeat.ofWord, statusField_of_toNat hw, doneField_of_toNat hw, dataField_of_toNat hw,
      posField_of_toNat hw, DecBeat.posField, Status.ofCode_code, if_true]

/-- Bytes and the `DONE` after them close one message. -/
theorem decResultsFrom_bytes_done (acc vs : List Byte) (st : Status) (c : CharCode) (p : Nat) :
    decResultsFrom acc ((vs.map DecBeat.byte ++ [DecBeat.done st c p]).map .beat) = [closeDec (acc ++ vs) st c p] := by
  induction vs generalizing acc with
  | nil => simp [decResultsFrom]
  | cons v vs ih => simpa [decResultsFrom] using ih (acc ++ [v])

/-- Settles O36: a beat's word is its number wherever the counter width holds the position, and the fields of the number
determine the beat. -/
theorem decoderBeatWords : Obligations.DecoderBeatWords := by
  refine ⟨DecBeat.toNat_word_byte, DecBeat.toNat_word_done_ok,
    fun _ _ c h => DecBeat.toNat_word_done_invalidCharacter c h,
    fun _ _ h => ⟨DecBeat.toNat_word h, DecBeat.ofWord_word h⟩, fun i s h => ?_, fun l vs st c p => ?_⟩
  · obtain ⟨r, hr, hbeats⟩ := exec_dec_beats h s
    exact ⟨_, r.2, hr, rfl, hbeats⟩
  · rw [decResults, decResultsFrom_append, decResultsFrom_bytes_done, decResults, closeDec]

end Sys2Proof.Machine

/-! SUPPORT. The encoder family (40_encoder.md): the commands, R74 to R77, and the placements, R71 and 41 R92. -/

namespace Sys2Proof.Machine

/-! ### An element placed below everything else in an accumulator

`acc.toNat % 2 ^ (p + w) = 0` says that the lane of `w` bits from bit `p` up and all bits below it are 0. -/

section Lane

variable {n w p : Nat}

/-- An element times the weight of its lane stays below the end of the lane. -/
theorem toNat_mul_two_pow_lt (v : BitVec w) (p : Nat) : v.toNat * 2 ^ p < 2 ^ (p + w) := by
  rw [Nat.add_comm, Nat.pow_add]
  exact Nat.mul_lt_mul_of_pos_right v.isLt (Nat.two_pow_pos p)

/-- An element shifted to a lane inside the accumulator loses no bit. -/
theorem toNat_setWidth_shiftLeft (hp : p + w ≤ n) (v : BitVec w) : (v.setWidth n <<< p).toNat = v.toNat * 2 ^ p := by
  have hlt : v.toNat * 2 ^ p < 2 ^ n := (toNat_mul_two_pow_lt v p).trans_le (Nat.pow_le_pow_right Nat.two_pos hp)
  rw [BitVec.toNat_shiftLeft, BitVec.toNat_setWidth_of_le (by omega), Nat.shiftLeft_eq, Nat.mod_eq_of_lt hlt]

theorem extractLsb'_eq_zero_of_mod {acc : BitVec n} (h : acc.toNat % 2 ^ (p + w) = 0) : acc.extractLsb' p w = 0 := by
  apply BitVec.eq_of_toNat_eq
  rw [BitVec.extractLsb'_toNat, Nat.shiftRight_eq_div_pow, ← Nat.mod_mul_right_div_self, ← Nat.pow_add, h,
    Nat.zero_div]
  rfl

/-- Where the lane and all bits below it are 0, the placement is an addition: the numbers share no bit. -/
theorem toNat_or_setWidth_shiftLeft (hp : p + w ≤ n) {acc : BitVec n} (h : acc.toNat % 2 ^ (p + w) = 0)
    (v : BitVec w) : (acc ||| v.setWidth n <<< p).toNat = acc.toNat + v.toNat * 2 ^ p := by
  obtain ⟨a, ha⟩ := Nat.dvd_of_mod_eq_zero h
  rw [BitVec.toNat_or, toNat_setWidth_shiftLeft hp, ha, Nat.two_pow_add_eq_or_of_lt (toNat_mul_two_pow_lt v p)]

end Lane

/-- Settles O17: the tail of zeros that I-E2 and I-D2 speak of is the next lane and all below it. -/
theorem placementIsAddition : Obligations.PlacementIsAddition := by
  refine ⟨fun _ _ _ => rfl, fun _ _ _ => rfl, fun s d h => ?_, fun s v h => ?_⟩
  · have htail : 40 - 8 * s.encPos.val = 32 - 8 * s.encPos.val + 8 := by omega
    rw [encTailZero, htail] at h
    exact ⟨extractLsb'_eq_zero_of_mod h, toNat_or_setWidth_shiftLeft (byteLane_fits _) h d⟩
  · have htail : 40 - 5 * s.decPos.val = 35 - 5 * s.decPos.val + 5 := by omega
    rw [decTailZero, htail] at h
    exact ⟨extractLsb'_eq_zero_of_mod h, toNat_or_setWidth_shiftLeft (groupLane_fits _) h v⟩

/-! ### The commands (40 R74 to R77) -/

/-- Settles O13: an encoder command leaves the decoder's flag, and its beats are those of 30 R56. -/
theorem encoderNeverFails : Obligations.EncoderNeverFails := by
  intro i s h
  obtain ⟨r, hr, hbeats⟩ := exec_enc_beats h s
  exact ⟨_, r.2, hr, rfl, rfl, fun b hb => (hbeats b hb).imp_right fun ⟨k, hk⟩ => ⟨k, hk, alpha_toNat_lt k⟩⟩

/-- What the host sees of `EncEmit(acc, n)`, lane by lane (40 R72). -/
theorem map_beat_encEmit (acc : Acc) (n : Nat) : (encEmit acc n).map Seen.beat =
    (List.range n).map fun j => .beat (.char (alpha ((acc >>> (35 - 5 * j) &&& 0x1F#40).setWidth 5))) :=
  List.map_map

/-- Settles O10, in the two branches of `ENC.PUSH`. -/
theorem encPushEffect : Obligations.EncPushEffect := by
  refine fun d s => ⟨decode_eq_ok_iff.mpr ⟨rfl, rfl⟩, ?_⟩
  have hexec : exec (.encPush d) s = .next (s.commandEnc (s.toEncUnit.push d)) := rfl
  obtain ⟨hpos, hr⟩ | ⟨hpos, hr⟩ := s.toEncUnit.push_cases d
  · rw [hexec, hr, State.commandEnc, map_beat_encEmit]
    simp only [hpos]
    rfl
  · have hval : s.encPos.val ≠ 4 := fun h => hpos (Fin.ext h)
    rw [hexec, hr, State.commandEnc]
    simp only [hval, if_false, List.map_nil, List.append_nil]
    rfl

/-- `ENC_GROUPS` entry by entry (40 R70). -/
theorem encGroups_eq_getD : ∀ n : Fin 6, encGroups n = [0, 2, 4, 5, 7, 8].getD n.val 0 := by decide

/-- The end of an encoder message, written out: the groups of the last block, `DONE(OK)`, both registers 0. -/
theorem State.commandEnc_finish (s : State) (u : EncUnit) (acc : Acc) (n : Fin 6) : s.commandEnc (u.finish acc n) =
    { s with
      encAcc := 0, encPos := 0
      encRes := s.encRes ++ (List.range ([0, 2, 4, 5, 7, 8].getD n.val 0)).map (fun j =>
        .beat (.char (alpha ((acc >>> (35 - 5 * j) &&& 0x1F#40).setWidth 5)))) ++ [.beat (.done .ok)] } := by
  rw [EncUnit.finish_eq, State.commandEnc, List.map_append, map_beat_encEmit, encGroups_eq_getD, ← List.append_assoc]
  rfl

/-- Settles O11: the end of a message whose last block holds the datum too. -/
theorem encPushlEffect : Obligations.EncPushlEffect := fun d s =>
  ⟨decode_eq_ok_iff.mpr ⟨rfl, rfl⟩,
    congrArg _ (s.commandEnc_finish s.toEncUnit (encPlace s.encAcc s.encPos d) s.encPos.succ)⟩

/-- Settles O12: the end of a message whose last block holds what was pushed before. -/
theorem encEndEffect : Obligations.EncEndEffect := fun s =>
  ⟨decode_eq_ok_iff.mpr ⟨rfl, rfl⟩, congrArg _ (s.commandEnc_finish s.toEncUnit s.encAcc s.encPos.castSucc)⟩

end Sys2Proof.Machine

/-! SUPPORT. The decoder family (41_decoder.md): the commands, R95 to R97, and what the drain of a partial last block
drops, R98 and R99. -/

namespace Sys2Proof.Machine

variable {s : State} {c : CharCode} {v : Index}

/-! ### The commands (41 R95 to R97) -/

/-- What the host sees of `DecEmit(acc, n)`, lane by lane (41 R93). -/
theorem map_beat_decEmit (acc : Acc) (n : Nat) : (decEmit acc n).map Seen.beat =
    (List.range n).map fun k => .beat (.byte ((acc >>> (32 - 8 * k) &&& 0xFF#40).setWidth 8)) :=
  List.map_map

/-- `DEC_BYTES` entry by entry (41 R90). -/
theorem decBytes_eq_getD : ∀ n : Fin 9, decBytes n = [0, 0, 1, 1, 2, 3, 3, 4, 5].getD n.val 0 := by decide

/-- What the host sees of the end of a decoder message without an error: the bytes of the last block, `DONE(OK)`. -/
theorem map_beat_decEmit_append_done (acc : Acc) (n : Fin 9) :
    (decEmit acc (decBytes n) ++ [DecBeat.done .ok 0 0]).map Seen.beat =
      (List.range ([0, 0, 1, 1, 2, 3, 3, 4, 5].getD n.val 0)).map (fun k =>
        .beat (.byte ((acc >>> (32 - 8 * k) &&& 0xFF#40).setWidth 8))) ++ [.beat (.done .ok 0 0)] := by
  rw [List.map_append, map_beat_decEmit, decBytes_eq_getD, List.map_singleton]

/-- The end of a decoder message: its beats, all six registers 0, everything else unchanged. -/
theorem State.commandDec_reset (s : State) (bs : List DecBeat) : s.commandDec (DecUnit.reset, bs) =
    { s with
      decAcc := 0, decPos := 0, decIdx := 0, decErr := false, decErrChar := 0, decErrPos := 0
      decRes := s.decRes ++ bs.map Seen.beat } := rfl

theorem exec_decPush (c : CharCode) (s : State) :
    exec (.decPush c) s = .next (s.commandDec (s.toDecUnit.push c)) := rfl

theorem exec_decPushl (c : CharCode) (s : State) :
    exec (.decPushl c) s = .next (s.commandDec (s.toDecUnit.pushl c)) := rfl

theorem exec_decEnd (s : State) : exec .decEnd s = .next (s.commandDec s.toDecUnit.endMessage) := rfl

/-- Settles O23, in the branches of `DEC.PUSH`: FAULTED, an invalid character, the eighth of a block, any other. -/
theorem decPushEffect : Obligations.DecPushEffect := by
  refine fun c s => ⟨decode_eq_ok_iff.mpr ⟨rfl, rfl⟩, ?_⟩
  rw [exec_decPush]
  obtain ⟨he, hr⟩ | ⟨he, hc, hr⟩ | ⟨he, v, hc, hr⟩ := s.toDecUnit.push_cases c
  · simp [hr, he, State.commandDec]
  · simp [hr, he, hc, State.commandDec, DecUnit.raiseInvalidCharacter_eq]
  · obtain ⟨hpos, ha⟩ | ⟨hpos, ha⟩ := s.toDecUnit.accept_cases v
    · rw [hr, ha, State.commandDec, map_beat_decEmit]
      simp only [he, hc, hpos]
      rfl
    · have hval : s.decPos.val ≠ 7 := fun h => hpos (Fin.ext h)
      rw [hr, ha, State.commandDec]
      simp only [he, hc, hval, if_false, List.map_nil, List.append_nil]
      rfl

/-- Settles O24, in the branches of `DEC.PUSHL`: the recorded error, the error of its own character, the end without an
error. -/
theorem decPushlEffect : Obligations.DecPushlEffect := by
  refine fun c s => ⟨decode_eq_ok_iff.mpr ⟨rfl, rfl⟩, ?_⟩
  rw [exec_decPushl]
  obtain ⟨he, hr⟩ | ⟨he, hc, hr⟩ | ⟨he, v, hc, hr⟩ := s.toDecUnit.pushl_cases c
  · rw [hr, State.commandDec_reset, if_pos he]
    rfl
  · rw [hr, State.commandDec_reset]
    simp only [he, hc]
    rfl
  · rw [hr, State.commandDec_reset, map_beat_decEmit_append_done]
    simp only [he, hc]
    rfl

/-- Settles O25, in the branches of `DEC.END`: the recorded error, the end without an error. -/
theorem decEndEffect : Obligations.DecEndEffect := by
  refine fun s => ⟨decode_eq_ok_iff.mpr ⟨rfl, rfl⟩, ?_⟩
  rw [exec_decEnd]
  obtain ⟨he, hr⟩ | ⟨he, hr⟩ := s.toDecUnit.endMessage_cases
  · rw [hr, State.commandDec_reset, if_pos he]
    rfl
  · rw [hr, State.commandDec_reset, map_beat_decEmit_append_done]
    simp only [he]
    rfl

/-! ### The end of a message outside FAULTED (41 R98, R99) -/

/-- Outside FAULTED `DEC.PUSHL` of a valid character ends the message without an error. -/
theorem exec_decPushl_of_valid (he : s.decErr = false) (hc : rev c = some v) : exec (.decPushl c) s = .next
    (s.commandDec (s.toDecUnit.finish (decPlace s.decAcc s.decPos v) s.decPos.succ)) := by
  simp [exec_decPushl, DecUnit.pushl, DecUnit.faulted, he, hc]

/-- Outside FAULTED `DEC.END` ends the message without an error. -/
theorem exec_decEnd_of_not_faulted (he : s.decErr = false) : exec .decEnd s = .next
    (s.commandDec (s.toDecUnit.finish s.decAcc s.decPos.castSucc)) := by
  simp [exec_decEnd, DecUnit.endMessage, DecUnit.faulted, he]

/-- The last beat of a message that ends without an error is `DONE(OK)`. -/
theorem getLast?_decRes_commandDec_finish (s : State) (u : DecUnit) (acc : Acc) (n : Fin 9) :
    (s.commandDec (u.finish acc n)).decRes.getLast? = some (.beat (.done .ok 0 0)) := by
  simp [DecUnit.finish_eq]

/-- A last block of one character yields no byte: the message ends with `DONE(OK)` alone (41 R98). -/
theorem decEmits_commandDec_finish_one (s : State) (u : DecUnit) (acc : Acc) :
    decEmits s (s.commandDec (u.finish acc 1)) [.done .ok 0 0] :=
  decEmits_commandDec_iff.mpr rfl

/-- A block of characters holds at most five bytes. -/
theorem decBytes_le_five : ∀ n : Fin 9, decBytes n ≤ 5 := by decide

/-- `DecByte` reads no bit below its lane: accumulators that agree down to the end of lane `n - 1` have the same byte in
each of the lanes `0` to `n - 1`. -/
theorem decByte_eq_of_ushiftRight_eq {a b : Acc} {n k : Nat} (hn : n ≤ 5) (h : a >>> (40 - 8 * n) = b >>> (40 - 8 * n))
    (hk : k < n) : decByte a k = decByte b k := by
  have hlane : 32 - 8 * k = 40 - 8 * n + 8 * (n - 1 - k) := by omega
  rw [decByte, decByte, hlane, BitVec.shiftRight_add, BitVec.shiftRight_add, h]

/-- The leftover bits of a last block have no effect on the end of its message (41 R99). -/
theorem DecUnit.finish_congr (u : DecUnit) {a b : Acc} {n : Fin 9}
    (h : a >>> (40 - 8 * decBytes n) = b >>> (40 - 8 * decBytes n)) : u.finish a n = u.finish b n := by
  have hbeats : decEmit a (decBytes n) = decEmit b (decBytes n) := List.map_congr_left fun k hk =>
    congrArg _ (decByte_eq_of_ushiftRight_eq (decBytes_le_five n) h (List.mem_range.mp hk))
  rw [DecUnit.finish, DecUnit.finish, hbeats]

/-- The message of one valid character decodes to no byte (41 R98). -/
theorem decodeMessage_singleton_of_valid (hc : rev c = some v) : decodeMessage [c] = some (.ok []) := by
  have hend : exec (.decPushl c) State.reset = _ := exec_decPushl_of_valid rfl hc
  simp only [decodeMessage, decMsg, execAll, hend]
  rfl

/-- Settles O27: every end of a message outside FAULTED is `DecUnit.finish`, which emits nothing for one character and
reads no leftover bit. -/
theorem tailsAndLeftoverBits : Obligations.TailsAndLeftoverBits := by
  refine ⟨fun s c he hpos hc => ?_, fun s he hpos => ?_, fun c hc => ?_, by decide, fun s acc he h => ?_,
    fun s acc c d v w he hc hd h => ?_, by decide, by decide, by decide⟩
  · obtain ⟨v, hv⟩ := Option.isSome_iff_exists.mp hc
    refine ⟨_, exec_decPushl_of_valid he hv, ?_⟩
    rw [hpos]
    exact decEmits_commandDec_finish_one ..
  · refine ⟨_, exec_decEnd_of_not_faulted he, ?_⟩
    rw [hpos]
    exact decEmits_commandDec_finish_one ..
  · obtain ⟨v, hv⟩ := Option.isSome_iff_exists.mp hc
    exact decodeMessage_singleton_of_valid hv
  · refine ⟨_, exec_decEnd_of_not_faulted he, ?_, getLast?_decRes_commandDec_finish ..⟩
    rw [exec_decEnd_of_not_faulted (s := { s with decAcc := acc }) he, DecUnit.finish_congr _ h]
    rfl
  · refine ⟨_, exec_decPushl_of_valid he hc, ?_, getLast?_decRes_commandDec_finish ..⟩
    rw [exec_decPushl_of_valid (s := { s with decAcc := acc }) he hd, DecUnit.finish_congr _ h]
    rfl

end Sys2Proof.Machine

/-! SUPPORT. The message functions family (42_message_functions.md): the elements of a message as numbers, and
how either unit streams them through its accumulator. -/

namespace Sys2Proof.Machine

/-! ### A sequence of elements as one number -/

section Packed

variable {w : Nat}

/-- The number that the bits of a sequence of elements spell, the first bit most significant (42 R123, R124). -/
def packed (l : List (BitVec w)) : Nat := Nat.ofDigits (2 ^ w) (l.map BitVec.toNat).reverse

@[simp] theorem packed_nil : packed ([] : List (BitVec w)) = 0 := rfl

theorem packed_append (l m : List (BitVec w)) : packed (l ++ m) = packed l * 2 ^ (w * m.length) + packed m := by
  rw [packed, List.map_append, List.reverse_append, Nat.ofDigits_append, List.length_reverse, List.length_map,
    ← Nat.pow_mul, Nat.add_comm, Nat.mul_comm, packed, packed]

theorem packed_concat (l : List (BitVec w)) (x : BitVec w) : packed (l ++ [x]) = packed l * 2 ^ w + x.toNat := by
  rw [packed_append, List.length_singleton, Nat.mul_one]
  simp [packed]

/-- A number determines the sequence of a given length that spells it. -/
theorem eq_of_packed_eq {l m : List (BitVec w)} (hlen : l.length = m.length) (h : packed l = packed m) : l = m := by
  have hlt (l : List (BitVec w)) : ∀ d ∈ (l.map BitVec.toNat).reverse, d < 2 ^ w := by
    simp only [List.mem_reverse, List.mem_map, forall_exists_index, and_imp, forall_apply_eq_imp_iff₂]
    exact fun x _ => x.isLt
  obtain rfl | hw := Nat.eq_zero_or_pos w
  · exact List.ext_getElem hlen fun _ _ _ => Subsingleton.elim _ _
  · have hdigits := Nat.ofDigits_inj_of_len_eq (Nat.one_lt_two_pow hw.ne') (by simpa using hlen) (hlt l) (hlt m) h
    exact List.map_injective_iff.mpr (fun _ _ => BitVec.eq_of_toNat_eq) (List.reverse_injective hdigits)

end Packed

/-! ### Elements streamed through an accumulator

Both units take `v`-bit elements into the accumulator from its top and drain it in `w`-bit lanes from its top; for the
encoder `v = 8` and `w = 5`, for the decoder the other way round. -/

section Stream

variable {v w pos n : Nat} {ins : List (BitVec v)} {outs : List (BitVec w)} {acc : Acc}

/-- The first `n` lanes of an accumulator, `w` bits wide, most significant first (20 R36, R37). -/
def lanes (w : Nat) (acc : Acc) (n : Nat) : List (BitVec w) :=
  (List.range n).map fun j => acc.extractLsb' (40 - w * (j + 1)) w

@[simp] theorem length_lanes (w : Nat) (acc : Acc) (n : Nat) : (lanes w acc n).length = n := by simp [lanes]

/-- The first lanes spell the top bits of the accumulator. -/
theorem packed_lanes (acc : Acc) (h : w * n ≤ 40) : packed (lanes w acc n) = acc.toNat / 2 ^ (40 - w * n) := by
  induction n with
  | zero => exact (Nat.div_eq_of_lt acc.isLt).symm
  | succ n ih =>
    have hsplit : 40 - w * n = 40 - w * (n + 1) + w := by rw [Nat.mul_succ] at h ⊢; omega
    have hn : w * n ≤ 40 := (Nat.mul_le_mul_left w n.le_succ).trans h
    have hconcat : lanes w acc (n + 1) = lanes w acc n ++ [acc.extractLsb' (40 - w * (n + 1)) w] := by
      simp [lanes, List.range_succ]
    rw [hconcat, packed_concat, ih hn, hsplit, Nat.pow_add, ← Nat.div_div_eq_div_mul, BitVec.extractLsb'_toNat,
      Nat.shiftRight_eq_div_pow, Nat.div_add_mod']

/-- Every bit that came in with `ins` went out with `outs` or stands in the accumulator, whose first `pos` lanes are
taken and whose other bits are 0. -/
def Streamed (ins : List (BitVec v)) (outs : List (BitVec w)) (acc : Acc) (pos : Nat) : Prop :=
  w * outs.length + v * pos = v * ins.length ∧
  packed outs * 2 ^ 40 + acc.toNat = packed ins * 2 ^ (40 - v * pos)

theorem Streamed.nil : Streamed ([] : List (BitVec v)) ([] : List (BitVec w)) 0 0 := by simp [Streamed]

/-- Placing an element in the next lane (40 R71, 41 R92). -/
theorem Streamed.place (h : Streamed ins outs acc pos) (hp : v * (pos + 1) ≤ 40) (x : BitVec v) :
    Streamed (ins ++ [x]) outs (acc ||| x.setWidth 40 <<< (40 - v * (pos + 1))) (pos + 1) := by
  obtain ⟨hlen, hnum⟩ := h
  have hlane : 40 - v * pos = 40 - v * (pos + 1) + v := by rw [Nat.mul_succ] at hp ⊢; omega
  have hzero : acc.toNat % 2 ^ (40 - v * (pos + 1) + v) = 0 := by
    rw [← hlane]
    apply Nat.mod_eq_zero_of_dvd
    have hdvd : 2 ^ (40 - v * pos) ∣ packed outs * 2 ^ 40 + acc.toNat := hnum ▸ Nat.dvd_mul_left ..
    exact (Nat.dvd_add_right ((Nat.pow_dvd_pow 2 (Nat.sub_le ..)).mul_left _)).mp hdvd
  refine ⟨by rw [List.length_append, List.length_singleton, Nat.mul_succ, Nat.mul_succ]; omega, ?_⟩
  rw [toNat_or_setWidth_shiftLeft (by omega) hzero, ← Nat.add_assoc, hnum, hlane, packed_concat, Nat.add_mul,
    Nat.pow_add, Nat.mul_assoc, Nat.mul_comm (2 ^ v)]

/-- Draining a full accumulator (40 R73, 41 R94). -/
theorem Streamed.drain (h : Streamed ins outs acc pos) (hp : v * pos = 40) (hn : w * n = 40) :
    Streamed ins (outs ++ lanes w acc n) 0 0 := by
  obtain ⟨hlen, hnum⟩ := h
  refine ⟨by rw [List.length_append, length_lanes, Nat.mul_add]; omega, ?_⟩
  rw [packed_append, packed_lanes acc hn.le, length_lanes, hn, Nat.sub_self, Nat.pow_zero, Nat.div_one, hnum, hp]
  simp

/-- Draining the first lanes of a last block: what goes out in all is what came in, cut or filled up to whole lanes. -/
theorem Streamed.packed_finish (h : Streamed ins outs acc pos) (hn : w * n ≤ 40) :
    packed (outs ++ lanes w acc n) = packed ins * 2 ^ (40 - v * pos) / 2 ^ (40 - w * n) := by
  have hsplit : 2 ^ 40 = 2 ^ (w * n) * 2 ^ (40 - w * n) := by rw [← Nat.pow_add, Nat.add_sub_cancel' hn]
  rw [← h.2, packed_append, packed_lanes acc hn, length_lanes, hsplit, ← Nat.mul_assoc, Nat.add_comm (_ * _ * _),
    Nat.add_mul_div_right _ _ (Nat.two_pow_pos _), Nat.add_comm]

/-- The last lanes hold all that is left and are filled up with zeros (40 R75, R76). -/
theorem Streamed.finish_fill (h : Streamed ins outs acc pos) (hle : v * pos ≤ w * n) (hn : w * n ≤ 40) :
    packed (outs ++ lanes w acc n) =
      packed ins * 2 ^ (w * (outs ++ lanes w acc n).length - v * ins.length) := by
  have hsplit : 40 - v * pos = w * n - v * pos + (40 - w * n) := by omega
  rw [h.packed_finish hn, hsplit, Nat.pow_add, ← Nat.mul_assoc, Nat.mul_div_cancel _ (Nat.two_pow_pos _), ← h.1,
    List.length_append, length_lanes, Nat.mul_add, Nat.add_sub_add_left]

/-- The last lanes that are whole go out, and the bits below them are dropped (41 R96 to R99). -/
theorem Streamed.finish_cut (h : Streamed ins outs acc pos) (hle : w * n ≤ v * pos) (hp : v * pos ≤ 40) :
    packed (outs ++ lanes w acc n) =
      packed ins / 2 ^ (v * ins.length - w * (outs ++ lanes w acc n).length) := by
  have hsplit : 40 - w * n = v * pos - w * n + (40 - v * pos) := by omega
  rw [h.packed_finish (hle.trans hp), hsplit, Nat.pow_add, Nat.mul_div_mul_right _ _ (Nat.two_pow_pos _), ← h.1,
    List.length_append, length_lanes, Nat.mul_add, Nat.add_sub_add_left]

end Stream

end Sys2Proof.Machine

/-! SUPPORT. The message functions family (42_message_functions.md): messages as commands, R120, and what a message asks
of its result. -/

namespace Sys2Proof.Machine

variable {s t : State} {p : Port} {i : Instr} {is : List Instr}

/-! ### What a message asks of its result -/

/-- The bits of the groups are the bits of the bytes, filled up with zeros to whole groups (42 R123, R125). -/
def Encodes (b : List Byte) (gs : List Index) : Prop :=
  gs.length = (8 * b.length + 4) / 5 ∧ packed gs = packed b * 2 ^ (5 * gs.length - 8 * b.length)

/-- The bits of the bytes are the bits of the groups, cut down to whole bytes (42 R124, R126). -/
def Decodes (gs : List Index) (vs : List Byte) : Prop :=
  vs.length = 5 * gs.length / 8 ∧ packed vs = packed gs / 2 ^ (5 * gs.length - 8 * vs.length)

theorem Encodes.unique {b : List Byte} {gs gs' : List Index} (h : Encodes b gs) (h' : Encodes b gs') : gs = gs' := by
  have hlen : gs.length = gs'.length := h.1.trans h'.1.symm
  exact eq_of_packed_eq hlen (by rw [h.2, h'.2, hlen])

theorem Decodes.unique {gs : List Index} {vs vs' : List Byte} (h : Decodes gs vs) (h' : Decodes gs vs') : vs = vs' := by
  have hlen : vs.length = vs'.length := h.1.trans h'.1.symm
  exact eq_of_packed_eq hlen (by rw [h.2, h'.2, hlen])

/-- The filler bits of an encoding are fewer than a byte, so they are what decoding drops (42 R127). -/
theorem Encodes.decodes {b : List Byte} {gs : List Index} (h : Encodes b gs) : Decodes gs b := by
  obtain ⟨hlen, hnum⟩ := h
  exact ⟨by omega, by rw [hnum, Nat.mul_div_cancel _ (Nat.two_pow_pos _)]⟩

/-- Encoding what was decoded gives the groups back exactly when their number is that of an encoding and the dropped
bits are 0 (42 R127). -/
theorem Decodes.encodes_iff {gs : List Index} {vs : List Byte} (h : Decodes gs vs) :
    Encodes vs gs ↔ gs.length % 8 ∈ [0, 2, 4, 5, 7] ∧ packed gs % 2 ^ (5 * gs.length % 8) = 0 := by
  obtain ⟨hlen, hnum⟩ := h
  have hdropped : 5 * gs.length - 8 * vs.length = 5 * gs.length % 8 := by omega
  have hcount : gs.length = (8 * vs.length + 4) / 5 ↔ gs.length % 8 ∈ [0, 2, 4, 5, 7] := by
    simp only [List.mem_cons, List.not_mem_nil, or_false]
    omega
  rw [Encodes, hcount, hnum, hdropped, eq_comm (a := packed gs), ← Nat.dvd_iff_div_mul_eq, Nat.dvd_iff_mod_eq_zero]

/-! ### Messages as commands (42 R120) -/

/-- `PUSH` on a port. -/
def pushOn : Port → BitVec 8 → Instr
  | .enc => .encPush
  | .dec => .decPush

/-- `PUSHL` on a port. -/
def pushlOn : Port → BitVec 8 → Instr
  | .enc => .encPushl
  | .dec => .decPushl

/-- `END` on a port. -/
def endOn : Port → Instr
  | .enc => .encEnd
  | .dec => .decEnd

theorem encMsg_concat (b : List Byte) (d : Byte) : encMsg (b ++ [d]) = b.map (pushOn .enc) ++ [pushlOn .enc d] := by
  induction b with
  | nil => rfl
  | cons e b ih => cases b <;> exact congrArg (Instr.encPush e :: ·) ih

theorem decMsg_concat (cs : List CharCode) (c : CharCode) :
    decMsg (cs ++ [c]) = cs.map (pushOn .dec) ++ [pushlOn .dec c] := by
  induction cs with
  | nil => rfl
  | cons e cs ih => cases cs <;> exact congrArg (Instr.decPush e :: ·) ih

/-- Any number of `PUSH` and then one command is a message exactly when this command ends one. -/
theorem isMessage_pushes_concat (l : List (BitVec 8)) :
    isMessage p (l.map (pushOn p) ++ [i]) = (decide (i.port = p) && i.endsMessage) := by
  induction l with
  | nil => rfl
  | cons d l ih =>
    have hpush : (pushOn p d).port = p ∧ (pushOn p d).endsMessage = false := by cases p <;> exact ⟨rfl, rfl⟩
    rw [← ih]
    cases l <;> simp [isMessage, hpush]

theorem filterMap_datum_pushes_concat (l : List (BitVec 8)) :
    (l.map (pushOn p) ++ [i]).filterMap Instr.datum = l ++ i.datum.toList := by
  have hpush : Instr.datum ∘ pushOn p = some := by cases p <;> rfl
  rw [List.filterMap_append, List.filterMap_map, hpush, List.filterMap_some]
  cases h : i.datum <;> simp [h]

/-- A command that ends a message is the `END` or a `PUSHL` of its port. -/
theorem eq_endOn_or_eq_pushlOn_of_endsMessage (h : i.endsMessage = true) : i = endOn i.port ∨ ∃ d, i = pushlOn i.port d := by
  cases i with
  | encPush | decPush => cases h
  | encPushl d | decPushl d => exact .inr ⟨d, rfl⟩
  | encEnd | decEnd => exact .inl rfl

/-- A command that does not end a message is a `PUSH` of its port. -/
theorem eq_pushOn_of_not_endsMessage (h : i.endsMessage = false) : ∃ d, i = pushOn i.port d := by
  cases i with
  | encPush d | decPush d => exact ⟨d, rfl⟩
  | encPushl | decPushl | encEnd | decEnd => cases h

/-- A message is spelled in one of two ways: all `PUSH` and then `END`, or `PUSHL` for the last element. -/
theorem isMessage_cases (h : isMessage p is = true) :
    ∃ l : List (BitVec 8), is = l.map (pushOn p) ++ [endOn p] ∨ ∃ d, is = l.map (pushOn p) ++ [pushlOn p d] := by
  induction is with
  | nil => cases h
  | cons i is ih =>
    cases is with
    | nil =>
      simp only [isMessage, Bool.and_eq_true, decide_eq_true_eq] at h
      obtain ⟨rfl, hend⟩ := h
      exact ⟨[], by simpa using eq_endOn_or_eq_pushlOn_of_endsMessage hend⟩
    | cons j is =>
      simp only [isMessage, Bool.and_eq_true, decide_eq_true_eq, Bool.not_eq_true'] at h
      obtain ⟨⟨rfl, hend⟩, hrest⟩ := h
      obtain ⟨d, hd⟩ := eq_pushOn_of_not_endsMessage hend
      obtain ⟨l, hl⟩ := ih hrest
      refine ⟨d :: l, ?_⟩
      rw [List.map_cons, ← hd]
      simpa using hl

/-! ### Commands executed one after another -/

@[simp] theorem State.commandEnc_commandEnc (s : State) (r q : EncUnit × List EncBeat) :
    (s.commandEnc r).commandEnc q = s.commandEnc (q.1, r.2 ++ q.2) := by
  simp [State.commandEnc]

@[simp] theorem State.commandDec_commandDec (s : State) (r q : DecUnit × List DecBeat) :
    (s.commandDec r).commandDec q = s.commandDec (q.1, r.2 ++ q.2) := by
  simp [State.commandDec]

theorem execAll_singleton (i : Instr) (s : State) : execAll [i] s = exec i s := by
  rw [execAll]
  cases exec i s <;> rfl

theorem execAll_append_of_next {js : List Instr} (h : execAll is s = .next t) :
    execAll (is ++ js) s = execAll js t := by
  rw [execAll_append, h]

theorem EncUnit.pushl_eq_push_endMessage (u : EncUnit) (d : Byte) :
    u.pushl d = ((u.push d).1.endMessage.1, (u.push d).2 ++ (u.push d).1.endMessage.2) := by
  obtain ⟨hpos, hr⟩ | ⟨hpos, hr⟩ := u.push_cases d
  · rw [hr, EncUnit.pushl_eq, hpos]
    rfl
  · have hsucc : (u.encPos + 1).castSucc = u.encPos.succ :=
      Fin.ext (Fin.val_add_one_of_lt (Fin.lt_last_iff_ne_last.mpr hpos))
    rw [hr, EncUnit.pushl_eq, EncUnit.endMessage_eq, hsucc]
    rfl

theorem DecUnit.push_of_faulted {u : DecUnit} (he : u.decErr = true) (c : CharCode) : u.push c = (u, []) := by
  simp [DecUnit.push, DecUnit.faulted, he]

theorem DecUnit.push_of_invalid {u : DecUnit} {c : CharCode} (he : u.decErr = false) (hc : rev c = none) :
    u.push c = (u.raiseInvalidCharacter c, []) := by
  simp [DecUnit.push, DecUnit.faulted, he, hc]

theorem DecUnit.push_of_valid {u : DecUnit} {c : CharCode} {v : Index} (he : u.decErr = false) (hc : rev c = some v) :
    u.push c = u.accept v := by
  simp [DecUnit.push, DecUnit.faulted, he, hc]

theorem DecUnit.endMessage_of_faulted {u : DecUnit} (he : u.decErr = true) :
    u.endMessage = (DecUnit.reset, [.done .invalidCharacter u.decErrChar u.decErrPos]) := by
  rw [DecUnit.endMessage, DecUnit.faulted, if_pos he, DecUnit.returnInvalidCharacter_eq]

theorem DecUnit.endMessage_of_not_faulted {u : DecUnit} (he : u.decErr = false) :
    u.endMessage = u.finish u.decAcc u.decPos.castSucc := by
  rw [DecUnit.endMessage, DecUnit.faulted, if_neg (by simp [he])]

theorem DecUnit.accept_decErr_decIdx (u : DecUnit) (v : Index) :
    (u.accept v).1.decErr = u.decErr ∧ (u.accept v).1.decIdx = u.decIdx + 1 := by
  obtain ⟨-, hr⟩ | ⟨-, hr⟩ := u.accept_cases v <;> rw [hr] <;> exact ⟨rfl, rfl⟩

theorem DecUnit.pushl_eq_push_endMessage (u : DecUnit) (c : CharCode) :
    u.pushl c = ((u.push c).1.endMessage.1, (u.push c).2 ++ (u.push c).1.endMessage.2) := by
  obtain ⟨he, hl⟩ | ⟨he, hc, hl⟩ | ⟨he, v, hc, hl⟩ := u.pushl_cases c
  · rw [hl, DecUnit.push_of_faulted he, DecUnit.endMessage_of_faulted he]
    rfl
  · rw [hl, DecUnit.push_of_invalid he hc, DecUnit.endMessage_of_faulted rfl]
    rfl
  · have he' : (u.accept v).1.decErr = false := (u.accept_decErr_decIdx v).1.trans he
    rw [hl, DecUnit.push_of_valid he hc, DecUnit.endMessage_of_not_faulted he', DecUnit.finish_eq]
    obtain ⟨hpos, ha⟩ | ⟨hpos, ha⟩ := u.accept_cases v
    · rw [ha, hpos]
      rfl
    · have hsucc : (u.decPos + 1).castSucc = u.decPos.succ :=
        Fin.ext (Fin.val_add_one_of_lt (Fin.lt_last_iff_ne_last.mpr hpos))
      rw [ha, hsucc]
      rfl

/-- `PUSHL` is `PUSH` and then `END`, in every state (40 R79, 41 R102). -/
theorem exec_pushlOn (p : Port) (d : BitVec 8) (s : State) : exec (pushlOn p d) s = execAll [pushOn p d, endOn p] s := by
  cases p with
  | enc =>
    calc exec (.encPushl d) s
        = .next (s.commandEnc (s.toEncUnit.pushl d)) := rfl
      _ = .next ((s.commandEnc (s.toEncUnit.push d)).commandEnc (s.toEncUnit.push d).1.endMessage) := by
        rw [EncUnit.pushl_eq_push_endMessage, State.commandEnc_commandEnc]
      _ = execAll [.encPush d, .encEnd] s := rfl
  | dec =>
    calc exec (.decPushl d) s
        = .next (s.commandDec (s.toDecUnit.pushl d)) := rfl
      _ = .next ((s.commandDec (s.toDecUnit.push d)).commandDec (s.toDecUnit.push d).1.endMessage) := by
        rw [DecUnit.pushl_eq_push_endMessage, State.commandDec_commandDec]
      _ = execAll [.decPush d, .decEnd] s := rfl

/-- The two spellings of a message have the same effect (30 R61). -/
theorem execAll_pushes_pushlOn (l : List (BitVec 8)) (d : BitVec 8) (s : State) :
    execAll (l.map (pushOn p) ++ [pushlOn p d]) s = execAll ((l ++ [d]).map (pushOn p) ++ [endOn p]) s := by
  rw [List.map_append, List.append_assoc, execAll_append, execAll_append (l.map (pushOn p))]
  simp only [execAll_singleton, exec_pushlOn]
  rfl

theorem execAll_encMsgEnd (b : List Byte) (s : State) : execAll (encMsgEnd b) s = execAll (encMsg b) s := by
  cases b using List.reverseRecOn with
  | nil => rfl
  | append_singleton b d => rw [encMsg_concat, execAll_pushes_pushlOn]; rfl

theorem execAll_decMsgEnd (cs : List CharCode) (s : State) : execAll (decMsgEnd cs) s = execAll (decMsg cs) s := by
  cases cs using List.reverseRecOn with
  | nil => rfl
  | append_singleton cs c => rw [decMsg_concat, execAll_pushes_pushlOn]; rfl

/-- Any message has the effect of its elements' message in the spelling with `END`. -/
theorem execAll_of_isMessage (h : isMessage p is = true) :
    ∃ l : List (BitVec 8), ∀ s, execAll is s = execAll (l.map (pushOn p) ++ [endOn p]) s := by
  obtain ⟨l, rfl | ⟨d, rfl⟩⟩ := isMessage_cases h
  · exact ⟨l, fun _ => rfl⟩
  · exact ⟨l ++ [d], execAll_pushes_pushlOn l d⟩

end Sys2Proof.Machine

/-! SUPPORT. The message functions family (42_message_functions.md): what a whole message run from a boundary does, and
`encode` and `decode`, R121 to R124. -/

namespace Sys2Proof.Machine

variable {s : State} {c : CharCode} {cs text : List CharCode}

/-! ### An encoder message -/

theorem encGroups_eq (n : Fin 6) : encGroups n = (8 * n.val + 4) / 5 := by revert n; decide

theorem encEmit_eq_lanes (acc : Acc) (n : Nat) : encEmit acc n = ((lanes 5 acc n).map alpha).map .char := by
  rw [encEmit, lanes, List.map_map, List.map_map]
  refine List.map_congr_left fun j _ => ?_
  have hlane : 35 - 5 * j = 40 - 5 * (j + 1) := by omega
  rw [encChar, encGroup_eq_extractLsb', hlane]
  rfl

/-- Placing a byte in the next lane. -/
theorem Streamed.encPlace {b : List Byte} {gs : List Index} {acc : Acc} {pos : Fin 5} (h : Streamed b gs acc pos)
    (d : Byte) : Streamed (b ++ [d]) gs (encPlace acc pos d) (pos + 1 : Nat) := by
  have hlane : 32 - 8 * pos.val = 40 - 8 * (pos.val + 1) := by omega
  rw [Machine.encPlace, encOperand, hlane]
  exact h.place (by omega) d

/-- `ENC.PUSH` takes a byte in and drains what makes whole groups of a full block. -/
theorem Streamed.encPush {b : List Byte} {gs : List Index} {u : EncUnit} (h : Streamed b gs u.encAcc u.encPos)
    (d : Byte) : ∃ gs', (u.push d).2 = (gs'.map alpha).map .char ∧
      Streamed (b ++ [d]) (gs ++ gs') (u.push d).1.encAcc (u.push d).1.encPos := by
  have hplace := h.encPlace d
  obtain ⟨hpos, hr⟩ | ⟨hpos, hr⟩ := u.push_cases d
  · rw [hr]
    rw [hpos] at hplace
    exact ⟨_, encEmit_eq_lanes .., hplace.drain rfl rfl⟩
  · have hval : (u.encPos + 1).val = u.encPos.val + 1 := Fin.val_add_one_of_lt (Fin.lt_last_iff_ne_last.mpr hpos)
    rw [hr]
    exact ⟨[], rfl, by rwa [List.append_nil, hval]⟩

/-- The bytes of an encoder message pushed from a boundary. -/
theorem execAll_map_encPush (hs : encAtBoundary s) (b : List Byte) : ∃ u gs,
    execAll (b.map .encPush) s = .next (s.commandEnc (u, (gs.map alpha).map .char)) ∧
      Streamed b gs u.encAcc u.encPos := by
  induction b using List.reverseRecOn with
  | nil =>
    refine ⟨s.toEncUnit, [], by simp [execAll, State.commandEnc], ?_⟩
    rw [hs.1, hs.2]
    exact Streamed.nil
  | append_singleton b d ih =>
    obtain ⟨u, gs, hrun, hstream⟩ := ih
    obtain ⟨gs', hbeats, hstream'⟩ := hstream.encPush d
    refine ⟨(u.push d).1, gs ++ gs', ?_, hstream'⟩
    calc execAll ((b ++ [d]).map .encPush) s
        = exec (.encPush d) (s.commandEnc (u, (gs.map alpha).map .char)) := by
          rw [List.map_append, execAll_append_of_next hrun, List.map_singleton, execAll_singleton]
      _ = .next ((s.commandEnc (u, (gs.map alpha).map .char)).commandEnc (u.push d)) := rfl
      _ = .next (s.commandEnc ((u.push d).1, ((gs ++ gs').map alpha).map .char)) := by
          rw [State.commandEnc_commandEnc, hbeats, List.map_append, List.map_append]

/-- A whole encoder message run from a boundary (42 R120, R121): the characters of its groups, `DONE(OK)`, and the
boundary again. -/
theorem execAll_encMsgEnd_of_boundary (hs : encAtBoundary s) (b : List Byte) : ∃ gs, Encodes b gs ∧
    execAll (encMsgEnd b) s = .next (s.commandEnc (EncUnit.reset, (gs.map alpha).map .char ++ [.done .ok])) := by
  obtain ⟨u, gs, hrun, hstream⟩ := execAll_map_encPush hs b
  have hn : encGroups u.encPos.castSucc = (8 * u.encPos.val + 4) / 5 := encGroups_eq _
  have hlen := hstream.1
  refine ⟨gs ++ lanes 5 u.encAcc (encGroups u.encPos.castSucc), ⟨?_, hstream.finish_fill (by omega) (by omega)⟩, ?_⟩
  · rw [List.length_append, length_lanes]
    omega
  · calc execAll (encMsgEnd b) s
        = exec .encEnd (s.commandEnc (u, (gs.map alpha).map .char)) := by
          rw [encMsgEnd, execAll_append_of_next hrun, execAll_singleton]
      _ = .next ((s.commandEnc (u, (gs.map alpha).map .char)).commandEnc u.endMessage) := rfl
      _ = _ := by
          rw [State.commandEnc_commandEnc, EncUnit.endMessage_eq, encEmit_eq_lanes, List.map_append, List.map_append,
            List.append_assoc]

/-- `encode` (42 R121, R123): the alphabet's characters for the groups of the bytes. -/
theorem encodeMessage_eq_some_iff {b : List Byte} :
    encodeMessage b = some text ↔ ∃ gs, Encodes b gs ∧ text = gs.map alpha := by
  obtain ⟨gs, henc, hrun⟩ := execAll_encMsgEnd_of_boundary (s := State.reset) ⟨rfl, rfl⟩ b
  have hres : encodeMessage b = some (gs.map alpha) := by
    have htexts : encTexts ((gs.map alpha).map EncBeat.char ++ [EncBeat.done .ok] |>.map .beat) = [gs.map alpha] :=
      encTextsFrom_chars_done ..
    rw [encodeMessage, ← execAll_encMsgEnd, hrun]
    simp only [State.commandEnc_encRes, State.reset_encRes, List.nil_append, htexts]
  rw [hres, Option.some_inj]
  exact ⟨fun h => ⟨gs, henc, h.symm⟩, fun ⟨gs', henc', h⟩ => by rw [h, henc.unique henc']⟩

theorem exists_encodes (b : List Byte) : ∃ gs, Encodes b gs :=
  (execAll_encMsgEnd_of_boundary (s := State.reset) ⟨rfl, rfl⟩ b).imp fun _ h => h.1

/-! ### The first invalid character of a text (42 R124, R130) -/

theorem firstInvalidFrom_eq_find? (n : Nat) (cs : List CharCode) :
    firstInvalidFrom n cs = (cs.zipIdx n).find? fun x => isInvalid x.1 := by
  induction cs generalizing n with
  | nil => rfl
  | cons c cs ih => cases h : rev c <;> simp [firstInvalidFrom, isInvalid, h, ih]

theorem firstInvalid_eq_none_iff : firstInvalid cs = none ↔ ∀ c ∈ cs, isInvalid c = false := by
  rw [firstInvalid, firstInvalidFrom_eq_find?, ← Option.map_eq_none_iff (f := Prod.fst)]
  have hfst : ((cs.zipIdx 0).find? fun x => isInvalid x.1).map Prod.fst = cs.find? isInvalid := by
    conv_rhs => rw [← List.zipIdx_map_fst 0 cs, List.find?_map]
    rfl
  simp [hfst]

theorem firstInvalid_eq_some_iff {p : Nat} : firstInvalid cs = some (c, p) ↔
    cs[p]? = some c ∧ isInvalid c = true ∧ ∀ d ∈ cs.take p, isInvalid d = false := by
  rw [firstInvalid, firstInvalidFrom_eq_find?, List.find?_eq_some_iff_getElem]
  simp only [List.length_zipIdx, List.getElem_zipIdx, Nat.zero_add, Prod.mk.injEq, Bool.not_eq_true',
    List.getElem?_eq_some_iff, List.mem_take_iff_getElem, Nat.lt_min]
  constructor
  · rintro ⟨hc, i, hi, ⟨hci, rfl⟩, hbefore⟩
    exact ⟨⟨hi, hci⟩, hc, by rintro d ⟨j, hj, rfl⟩; exact hbefore j hj.1⟩
  · rintro ⟨⟨hp, hcp⟩, hc, hbefore⟩
    exact ⟨hc, p, hp, ⟨hcp, rfl⟩, fun j hj => hbefore _ ⟨j, ⟨hj, hj.trans hp⟩, rfl⟩⟩

theorem firstInvalid_concat (cs : List CharCode) (c : CharCode) :
    firstInvalid (cs ++ [c]) = (firstInvalid cs).or (if isInvalid c then some (c, cs.length) else none) := by
  rw [firstInvalid, firstInvalid, firstInvalidFrom_eq_find?, firstInvalidFrom_eq_find?, List.zipIdx_append,
    List.find?_append]
  cases h : isInvalid c <;> simp [h]

/-! ### A decoder message -/

theorem decBytes_eq (n : Fin 9) : decBytes n = 5 * n.val / 8 := by revert n; decide

theorem decEmit_eq_lanes (acc : Acc) (n : Nat) : decEmit acc n = (lanes 8 acc n).map .byte := by
  rw [decEmit, lanes, List.map_map]
  refine List.map_congr_left fun k _ => ?_
  have hlane : 32 - 8 * k = 40 - 8 * (k + 1) := by omega
  rw [decByte_eq_extractLsb', hlane]
  rfl

theorem Streamed.decPlace {gs : List Index} {vs : List Byte} {acc : Acc} {pos : Fin 8} (h : Streamed gs vs acc pos)
    (v : Index) : Streamed (gs ++ [v]) vs (decPlace acc pos v) (pos + 1 : Nat) := by
  have hlane : 35 - 5 * pos.val = 40 - 5 * (pos.val + 1) := by omega
  rw [Machine.decPlace, decOperand, hlane]
  exact h.place (by omega) v

/-- Accepting an index takes it in and drains the bytes of a full block. -/
theorem Streamed.decAccept {gs : List Index} {vs : List Byte} {u : DecUnit} (h : Streamed gs vs u.decAcc u.decPos)
    (v : Index) : ∃ vs', (u.accept v).2 = vs'.map .byte ∧
      Streamed (gs ++ [v]) (vs ++ vs') (u.accept v).1.decAcc (u.accept v).1.decPos := by
  have hplace := h.decPlace v
  obtain ⟨hpos, hr⟩ | ⟨hpos, hr⟩ := u.accept_cases v
  · rw [hr]
    rw [hpos] at hplace
    exact ⟨_, decEmit_eq_lanes .., hplace.drain rfl rfl⟩
  · have hval : (u.decPos + 1).val = u.decPos.val + 1 := Fin.val_add_one_of_lt (Fin.lt_last_iff_ne_last.mpr hpos)
    rw [hr]
    exact ⟨[], rfl, by rwa [List.append_nil, hval]⟩

/-- The decoder after the characters `cs` of a message, `vs` being the bytes drained so far: FAULTED with the first
invalid character, or counting and streaming the indices. -/
def AfterPushes (cs : List CharCode) (vs : List Byte) (u : DecUnit) : Prop :=
  (∃ c p, firstInvalid cs = some (c, p) ∧ u.decErr = true ∧ u.decErrChar = c ∧ u.decErrPos = p) ∨
  (firstInvalid cs = none ∧ u.decErr = false ∧ u.decIdx = cs.length ∧
    Streamed (cs.map indexOf) vs u.decAcc u.decPos)

/-- `DEC.PUSH` goes on with a message (41 R95). -/
theorem AfterPushes.push {vs : List Byte} {u : DecUnit} (h : AfterPushes cs vs u) (c : CharCode) :
    ∃ vs', (u.push c).2 = vs'.map .byte ∧ AfterPushes (cs ++ [c]) (vs ++ vs') (u.push c).1 := by
  obtain ⟨d, p, hfirst, he, hchar, hpos⟩ | ⟨hfirst, he, hidx, hstream⟩ := h
  · rw [DecUnit.push_of_faulted he]
    exact ⟨[], rfl, .inl ⟨d, p, by simp [firstInvalid_concat, hfirst], he, hchar, hpos⟩⟩
  · cases hc : rev c with
    | none =>
      rw [DecUnit.push_of_invalid he hc]
      exact ⟨[], rfl, .inl ⟨c, cs.length, by simp [firstInvalid_concat, hfirst, isInvalid, hc], rfl, rfl, hidx⟩⟩
    | some v =>
      obtain ⟨vs', hbeats, hstream'⟩ := hstream.decAccept v
      obtain ⟨herr, hidx'⟩ := u.accept_decErr_decIdx v
      have hindex : indexOf c = v := by simp [indexOf, hc]
      rw [DecUnit.push_of_valid he hc]
      refine ⟨vs', hbeats, .inr ⟨by simp [firstInvalid_concat, hfirst, isInvalid, hc], herr.trans he, ?_, ?_⟩⟩
      · rw [hidx', hidx, List.length_append, List.length_singleton]
      · rwa [List.map_append, List.map_singleton, hindex]

/-- The characters of a decoder message pushed from a boundary. -/
theorem execAll_map_decPush (hs : decAtBoundary s) (cs : List CharCode) : ∃ u vs,
    execAll (cs.map .decPush) s = .next (s.commandDec (u, vs.map .byte)) ∧ AfterPushes cs vs u := by
  induction cs using List.reverseRecOn with
  | nil =>
    obtain ⟨hacc, hpos, hidx, herr, -⟩ := hs
    refine ⟨s.toDecUnit, [], by simp [execAll, State.commandDec], .inr ⟨rfl, herr, hidx, ?_⟩⟩
    rw [hacc, hpos]
    exact Streamed.nil
  | append_singleton cs c ih =>
    obtain ⟨u, vs, hrun, hafter⟩ := ih
    obtain ⟨vs', hbeats, hafter'⟩ := hafter.push c
    refine ⟨(u.push c).1, vs ++ vs', ?_, hafter'⟩
    calc execAll ((cs ++ [c]).map .decPush) s
        = exec (.decPush c) (s.commandDec (u, vs.map .byte)) := by
          rw [List.map_append, execAll_append_of_next hrun, List.map_singleton, execAll_singleton]
      _ = .next ((s.commandDec (u, vs.map .byte)).commandDec (u.push c)) := rfl
      _ = .next (s.commandDec ((u.push c).1, (vs ++ vs').map .byte)) := by
          rw [State.commandDec_commandDec, hbeats, List.map_append]

/-- `DEC.END` after the characters of a message. -/
theorem execAll_decMsgEnd_of_next {u : DecUnit} {vs : List Byte}
    (hrun : execAll (cs.map .decPush) s = .next (s.commandDec (u, vs.map .byte))) :
    execAll (decMsgEnd cs) s = .next (s.commandDec (u.endMessage.1, vs.map .byte ++ u.endMessage.2)) := by
  calc execAll (decMsgEnd cs) s
      = exec .decEnd (s.commandDec (u, vs.map .byte)) := by
        rw [decMsgEnd, execAll_append_of_next hrun, execAll_singleton]
    _ = .next ((s.commandDec (u, vs.map .byte)).commandDec u.endMessage) := rfl
    _ = _ := by rw [State.commandDec_commandDec]

/-- A whole decoder message of valid characters run from a boundary (42 R120, R122): the bytes, `DONE(OK)`, and the
boundary again. -/
theorem execAll_decMsgEnd_of_valid (hs : decAtBoundary s) (h : firstInvalid cs = none) :
    ∃ vs, Decodes (cs.map indexOf) vs ∧
      execAll (decMsgEnd cs) s = .next (s.commandDec (DecUnit.reset, vs.map .byte ++ [.done .ok 0 0])) := by
  obtain ⟨u, vs, hrun, ⟨c, p, h', -⟩ | ⟨-, he, -, hstream⟩⟩ := execAll_map_decPush hs cs
  · simp [h] at h'
  · have hn : decBytes u.decPos.castSucc = 5 * u.decPos.val / 8 := decBytes_eq _
    have hlen := hstream.1
    refine ⟨vs ++ lanes 8 u.decAcc (decBytes u.decPos.castSucc), ⟨?_, hstream.finish_cut (by omega) (by omega)⟩, ?_⟩
    · rw [List.length_append, length_lanes]
      omega
    · rw [execAll_decMsgEnd_of_next hrun, DecUnit.endMessage_of_not_faulted he, DecUnit.finish_eq, decEmit_eq_lanes,
        List.map_append, List.append_assoc]

/-- A decoder message with an invalid character run from a boundary (42 R122): bytes, then the error of the first
invalid character, and the boundary again. -/
theorem execAll_decMsgEnd_of_invalid {p : Nat} (hs : decAtBoundary s) (h : firstInvalid cs = some (c, p)) :
    ∃ vs : List Byte, execAll (decMsgEnd cs) s =
      .next (s.commandDec (DecUnit.reset, vs.map .byte ++ [.done .invalidCharacter c p])) := by
  obtain ⟨u, vs, hrun, ⟨c', p', h', he, rfl, rfl⟩ | ⟨h', -⟩⟩ := execAll_map_decPush hs cs
  · obtain ⟨rfl, rfl⟩ := Prod.mk.inj (Option.some.inj (h.symm.trans h'))
    exact ⟨vs, by rw [execAll_decMsgEnd_of_next hrun, DecUnit.endMessage_of_faulted he]⟩
  · simp [h] at h'

/-- The result of a decoder message whose bytes and `DONE` are known. -/
theorem decodeMessage_of_execAll {vs : List Byte} {st : Status} {p : Nat}
    (h : execAll (decMsgEnd cs) State.reset =
      .next (State.reset.commandDec (DecUnit.reset, vs.map .byte ++ [.done st c p]))) :
    decodeMessage cs = some (closeDec vs st c p) := by
  rw [decodeMessage, ← execAll_decMsgEnd, h]
  simp [decResults, -List.map_append, decResultsFrom_bytes_done]

/-- `decode` of valid characters (42 R124). -/
theorem decodeMessage_of_valid (h : firstInvalid cs = none) :
    ∃ vs, Decodes (cs.map indexOf) vs ∧ decodeMessage cs = some (.ok vs) := by
  obtain ⟨vs, hdec, hrun⟩ := execAll_decMsgEnd_of_valid (s := State.reset) (by decide) h
  exact ⟨vs, hdec, decodeMessage_of_execAll hrun⟩

/-- `decode` of a text with an invalid character (42 R124). -/
theorem decodeMessage_of_invalid {p : Nat} (h : firstInvalid cs = some (c, p)) :
    decodeMessage cs = some (.err .invalidCharacter c p) := by
  obtain ⟨vs, hrun⟩ := execAll_decMsgEnd_of_invalid (s := State.reset) (by decide) h
  exact decodeMessage_of_execAll hrun

theorem decodeMessage_eq_ok_iff {vs : List Byte} :
    decodeMessage cs = some (.ok vs) ↔ (∀ c ∈ cs, isInvalid c = false) ∧ Decodes (cs.map indexOf) vs := by
  rw [← firstInvalid_eq_none_iff]
  cases h : firstInvalid cs with
  | none =>
    obtain ⟨vs', hdec, hres⟩ := decodeMessage_of_valid h
    simp only [hres, Option.some_inj, DecResult.ok.injEq, true_and]
    exact ⟨fun h => h ▸ hdec, hdec.unique⟩
  | some x => simp [decodeMessage_of_invalid h]

theorem decodeMessage_eq_err_iff {st : Status} {p : Nat} : decodeMessage cs = some (.err st c p) ↔
    st = .invalidCharacter ∧ cs[p]? = some c ∧ isInvalid c = true ∧ ∀ d ∈ cs.take p, isInvalid d = false := by
  rw [← firstInvalid_eq_some_iff]
  cases h : firstInvalid cs with
  | none =>
    obtain ⟨vs, -, hres⟩ := decodeMessage_of_valid h
    simp [hres]
  | some x => simp [decodeMessage_of_invalid h, Prod.ext_iff, eq_comm]

end Sys2Proof.Machine

/-! SUPPORT. The message functions family (42_message_functions.md): the laws of messages, R120 and R125 to R131. -/

namespace Sys2Proof.Machine

variable {c : CharCode} {cs text : List CharCode}

/-! ### The spellings of a message, its length and its errors (42 R120, R125, R126, R129 to R131) -/

theorem isMessage_encMsg (b : List Byte) : isMessage .enc (encMsg b) = true ∧ (encMsg b).filterMap Instr.datum = b := by
  cases b using List.reverseRecOn with
  | nil => exact ⟨rfl, rfl⟩
  | append_singleton b d =>
    rw [encMsg_concat, isMessage_pushes_concat, filterMap_datum_pushes_concat]
    exact ⟨rfl, rfl⟩

theorem isMessage_decMsg (cs : List CharCode) :
    isMessage .dec (decMsg cs) = true ∧ (decMsg cs).filterMap Instr.datum = cs := by
  cases cs using List.reverseRecOn with
  | nil => exact ⟨rfl, rfl⟩
  | append_singleton cs c =>
    rw [decMsg_concat, isMessage_pushes_concat, filterMap_datum_pushes_concat]
    exact ⟨rfl, rfl⟩

theorem isMessage_pushes_endOn (p : Port) (l : List (BitVec 8)) : isMessage p (l.map (pushOn p) ++ [endOn p]) = true ∧
    (l.map (pushOn p) ++ [endOn p]).filterMap Instr.datum = l := by
  rw [isMessage_pushes_concat, filterMap_datum_pushes_concat]
  cases p <;> exact ⟨rfl, List.append_nil l⟩

/-- Settles O44: any message has the effect of its elements' message with `END`, whose beats from a boundary are known. -/
theorem messageBeatsEndWithDone : Obligations.MessageBeatsEndWithDone := by
  refine ⟨fun b => ?_, fun cs => ?_, fun is s his hs => ?_, fun is s his hs => ?_⟩
  · obtain ⟨hmsg, hdata⟩ := isMessage_encMsg b
    obtain ⟨hend, hdata'⟩ := isMessage_pushes_endOn .enc b
    exact ⟨hmsg, hend, hdata, hdata', execAll_encMsgEnd b⟩
  · obtain ⟨hmsg, hdata⟩ := isMessage_decMsg cs
    obtain ⟨hend, hdata'⟩ := isMessage_pushes_endOn .dec cs
    exact ⟨hmsg, hend, hdata, hdata', execAll_decMsgEnd cs⟩
  · obtain ⟨b, hb⟩ := execAll_of_isMessage his
    obtain ⟨gs, -, hrun⟩ := execAll_encMsgEnd_of_boundary hs b
    exact ⟨_, gs.map alpha, (hb s).trans hrun, rfl⟩
  · obtain ⟨cs, hcs⟩ := execAll_of_isMessage his
    cases h : firstInvalid cs with
    | none =>
      obtain ⟨vs, -, hrun⟩ := execAll_decMsgEnd_of_valid hs h
      exact ⟨_, vs, .ok, 0, 0, (hcs s).trans hrun, rfl⟩
    | some x =>
      obtain ⟨vs, hrun⟩ := execAll_decMsgEnd_of_invalid hs h
      exact ⟨_, vs, .invalidCharacter, x.1, x.2, (hcs s).trans hrun, rfl⟩

/-- Settles O51: the empty message from a boundary drains nothing. -/
theorem emptyMessage : Obligations.EmptyMessage := by
  refine ⟨rfl, rfl, fun s hs => ?_, fun s hs => ?_⟩
  · obtain ⟨gs, henc, hrun⟩ := execAll_encMsgEnd_of_boundary hs []
    have hgs : gs = [] := List.length_eq_zero_iff.mp henc.1
    exact ⟨_, hrun, by rw [hgs]; rfl⟩
  · obtain ⟨vs, hdec, hrun⟩ := execAll_decMsgEnd_of_valid hs (cs := []) rfl
    have hvs : vs = [] := List.length_eq_zero_iff.mp hdec.1
    exact ⟨_, hrun, by rw [hvs]; rfl⟩

/-- Settles O47: an encoding has the length `Encodes` says. -/
theorem encodingLength : Obligations.EncodingLength := by
  refine ⟨fun b => ?_, by decide⟩
  obtain ⟨gs, henc⟩ := exists_encodes b
  have hlen := henc.1
  have hmod : (Fin.ofNat 6 (b.length % 5)).val = b.length % 5 := Nat.mod_eq_of_lt (by omega)
  refine ⟨gs.map alpha, encodeMessage_eq_some_iff.mpr ⟨gs, henc, rfl⟩, ?_, ?_⟩
  · rw [List.length_map, ceilDiv, hlen, Nat.mul_comm]
    rfl
  · rw [List.length_map, encGroups_eq, hmod, hlen]
    omega

/-- Settles O48: a decoding has the length `Decodes` says. -/
theorem decodingLength : Obligations.DecodingLength := by
  refine ⟨fun s hs => ?_, by decide⟩
  obtain ⟨vs, hdec, hres⟩ := decodeMessage_of_valid (firstInvalid_eq_none_iff.mpr hs)
  have hlen := hdec.1
  have hmod : (Fin.ofNat 9 (s.length % 8)).val = s.length % 8 := Nat.mod_eq_of_lt (by omega)
  rw [List.length_map] at hlen
  refine ⟨vs, hres, by rw [hlen, Nat.mul_comm], ?_⟩
  rw [decBytes_eq, hmod, hlen]
  omega

/-- Settles O52: the first invalid character alone decides, and `REV` says which codes are valid. -/
theorem rejectionIsExact : Obligations.RejectionIsExact := by
  refine fun s => ⟨fun c => ?_, ⟨fun h => ?_, fun ⟨vs, h⟩ => (decodeMessage_eq_ok_iff.mp h).1⟩, fun c p => ?_⟩
  · rw [← rev_isSome_iff, isInvalid]
    simp
  · obtain ⟨vs, -, hres⟩ := decodeMessage_of_valid (firstInvalid_eq_none_iff.mpr h)
    exact ⟨vs, hres⟩
  · rw [decodeMessage_eq_err_iff]
    simp

theorem exec_next (i : Instr) (s : State) : ∃ t, exec i s = .next t := by
  obtain ⟨f, hf⟩ := exec_of_registers i
  exact ⟨_, hf s⟩

theorem length_decMsg (h : cs ≠ []) : (decMsg cs).length = cs.length := by
  cases cs using List.reverseRecOn with
  | nil => exact absurd rfl h
  | append_singleton cs c => simp [decMsg_concat]

/-- Settles O53: the data of `DEC.MSG` are its characters, and from a boundary it ends with `DONE(OK)` at the boundary. -/
theorem noElementBeyondTheMessage : Obligations.NoElementBeyondTheMessage := by
  refine ⟨fun cs s hcs hs => ⟨congrArg List.length (isMessage_decMsg cs).2, length_decMsg, ?_⟩, exec_next⟩
  obtain ⟨vs, -, hrun⟩ := execAll_decMsgEnd_of_valid hs (firstInvalid_eq_none_iff.mpr hcs)
  refine ⟨_, (execAll_decMsgEnd cs s).symm.trans hrun, by simp, decAtBoundary_iff.mpr rfl⟩

/-! ### Round trip and canonical text (42 R127) -/

theorem rev_alpha : ∀ g : Index, rev (alpha g) = some g := by decide

theorem indexOf_alpha (g : Index) : indexOf (alpha g) = g := by simp [indexOf, rev_alpha]

theorem toLower_alpha : ∀ g : Index, toLower (alpha g) = alpha g := by decide

/-- A valid code that is not a capital letter is the character of its own index. -/
theorem alpha_indexOf : ∀ c : CharCode, (rev c).isSome = true → toLower c = c → alpha (indexOf c) = c := by decide

theorem map_indexOf_map_alpha (gs : List Index) : (gs.map alpha).map indexOf = gs := by
  simp [Function.comp_def, indexOf_alpha]

theorem isInvalid_of_mem_map_alpha {gs : List Index} (h : c ∈ gs.map alpha) : isInvalid c = false := by
  obtain ⟨g, -, rfl⟩ := List.mem_map.mp h
  simp [isInvalid, rev_alpha]

/-- `decode` of `encode` (42 R127). -/
theorem decodeMessage_of_encodeMessage {b : List Byte} (h : encodeMessage b = some text) :
    decodeMessage text = some (.ok b) := by
  obtain ⟨gs, henc, rfl⟩ := encodeMessage_eq_some_iff.mp h
  refine decodeMessage_eq_ok_iff.mpr ⟨fun _ => isInvalid_of_mem_map_alpha, ?_⟩
  rw [map_indexOf_map_alpha]
  exact henc.decodes

/-- The text is its own indices' text exactly when each character is an entry of `ALPHA`. -/
theorem eq_map_alpha_map_indexOf_iff : text = (text.map indexOf).map alpha ↔
    ∀ c ∈ text, (rev c).isSome = true ∧ toLower c = c := by
  constructor
  · intro h c hc
    rw [h] at hc
    obtain ⟨g, -, rfl⟩ := List.mem_map.mp hc
    exact ⟨by simp [rev_alpha], toLower_alpha g⟩
  · intro h
    calc text = text.map id := (List.map_id text).symm
      _ = text.map (alpha ∘ indexOf) := List.map_congr_left fun c hc => (alpha_indexOf c (h c hc).1 (h c hc).2).symm
      _ = (text.map indexOf).map alpha := List.map_map.symm

/-- The bits of a text that are dropped stand in its last character (00 R9). -/
theorem packed_mod_of_getLastD (cs : List CharCode) {r : Nat} (hr : r ≤ 5) :
    packed (cs.map indexOf) % 2 ^ r = (indexOf (cs.getLastD 0x61#8)).toNat % 2 ^ r := by
  cases cs using List.reverseRecOn with
  | nil => rfl
  | append_singleton cs c =>
    rw [List.map_append, List.map_singleton, packed_concat, List.getLastD_concat, Nat.add_mod,
      Nat.mod_eq_zero_of_dvd ((Nat.pow_dvd_pow 2 hr).mul_left _), Nat.zero_add, Nat.mod_mod]

/-- Canonical text in terms of its indices. -/
theorem canonicalText_iff : canonicalText text = true ↔ text = (text.map indexOf).map alpha ∧
    text.length % 8 ∈ [0, 2, 4, 5, 7] ∧ packed (text.map indexOf) % 2 ^ (5 * text.length % 8) = 0 := by
  have hmod : text.length % 8 ∈ [0, 2, 4, 5, 7] → 5 * text.length % 8 ≤ 5 := by
    simp only [List.mem_cons, List.not_mem_nil, or_false]
    omega
  rw [eq_map_alpha_map_indexOf_iff, canonicalText]
  simp only [Bool.and_eq_true, List.all_eq_true, decide_eq_true_eq, List.contains_iff_mem, and_assoc]
  refine and_congr_right fun _ => and_congr_right fun h => ?_
  rw [packed_mod_of_getLastD text (hmod h)]

/-- Settles O49: decoding drops only filler bits; the converse asks for the length, the zero bits and the characters of
an encoding, which is canonical text. -/
theorem roundTrip : Obligations.RoundTrip := by
  refine ⟨fun b => ?_, fun s vs h => ?_⟩
  · obtain ⟨gs, henc⟩ := exists_encodes b
    have hres := encodeMessage_eq_some_iff.mpr ⟨gs, henc, rfl⟩
    exact ⟨_, hres, decodeMessage_of_encodeMessage hres⟩
  · obtain ⟨-, hdec⟩ := decodeMessage_eq_ok_iff.mp h
    have hiff := hdec.encodes_iff
    rw [List.length_map] at hiff
    rw [encodeMessage_eq_some_iff, canonicalText_iff, ← hiff]
    constructor
    · rintro ⟨gs, henc, rfl⟩
      rw [map_indexOf_map_alpha]
      exact ⟨rfl, henc⟩
    · exact fun ⟨htext, henc⟩ => ⟨_, henc, htext⟩

/-! ### Letter case (42 R128) -/

/-- `REV` ignores the case of a letter (20 R34). -/
theorem rev_toLower : ∀ c : CharCode, rev (toLower c) = rev c := by decide

/-- Texts that differ only in case have the same indices. -/
theorem map_rev_of_sameButCase (h : sameButCase cs text = true) : cs.map rev = text.map rev := by
  have hmap (l : List CharCode) : (l.map toLower).map rev = l.map rev := by simp [Function.comp_def, rev_toLower]
  rw [← hmap cs, of_decide_eq_true h, hmap]

theorem valid_iff_not_mem_map_rev : (∀ c ∈ cs, isInvalid c = false) ↔ none ∉ cs.map rev := by
  simp [isInvalid, Option.isSome_iff_ne_none]

/-- The bytes of a text depend on `REV` of its characters alone. -/
theorem decodeMessage_eq_ok_iff_of_map_rev {vs : List Byte} (h : cs.map rev = text.map rev) :
    decodeMessage cs = some (.ok vs) ↔ decodeMessage text = some (.ok vs) := by
  have hindex (l : List CharCode) : l.map indexOf = (l.map rev).map (Option.getD · 0) := by
    rw [List.map_map]
    rfl
  rw [decodeMessage_eq_ok_iff, decodeMessage_eq_ok_iff, valid_iff_not_mem_map_rev, valid_iff_not_mem_map_rev, hindex,
    hindex, h]

/-- So does the position of the error, at which the character presented there is reported. -/
theorem decodeMessage_err_of_map_rev {st : Status} {p : Nat} (h : cs.map rev = text.map rev)
    (hres : decodeMessage cs = some (.err st c p)) :
    ∃ d, decodeMessage text = some (.err st d p) ∧ text[p]? = some d := by
  obtain ⟨hst, hc, hinvalid, hbefore⟩ := decodeMessage_eq_err_iff.mp hres
  have hrev : (text.map rev)[p]? = some (rev c) := by rw [← h, List.getElem?_map, hc, Option.map_some]
  rw [List.getElem?_map, Option.map_eq_some_iff] at hrev
  obtain ⟨d, hd, hdc⟩ := hrev
  refine ⟨d, decodeMessage_eq_err_iff.mpr ⟨hst, hd, ?_, ?_⟩, hd⟩
  · rwa [isInvalid, hdc]
  · rw [valid_iff_not_mem_map_rev, List.map_take] at hbefore ⊢
    rwa [← h]

/-- Settles O50: decoding reads a character through `REV`, which ignores the case. -/
theorem caseDoesNotMatter : Obligations.CaseDoesNotMatter :=
  ⟨fun _ _ _ henc h =>
    (decodeMessage_eq_ok_iff_of_map_rev (map_rev_of_sameButCase h)).mp (decodeMessage_of_encodeMessage henc),
    fun _ _ _ h => (decodeMessage_eq_ok_iff_of_map_rev (map_rev_of_sameButCase h)).mp,
    fun _ _ _ _ _ h => decodeMessage_err_of_map_rev (map_rev_of_sameButCase h)⟩

end Sys2Proof.Machine

/-! SUPPORT. The exception family (60_exceptions.md): the trap entry, FAULTED and the trap return, R146 to R150. -/

namespace Sys2Proof.Machine

variable {s : State} {c : CharCode} {cs : List CharCode}

/-! ### FAULTED and the trap return (60 R147 to R149) -/

theorem exec_decPush_of_faulted (he : s.decErr = true) (c : CharCode) : exec (.decPush c) s = .next s := by
  rw [exec_decPush, DecUnit.push_of_faulted he]
  simp [State.commandDec]

theorem execAll_map_decPush_of_faulted (he : s.decErr = true) (cs : List CharCode) :
    execAll (cs.map .decPush) s = .next s := by
  induction cs with
  | nil => rfl
  | cons c cs ih =>
    rw [List.map_cons, execAll, exec_decPush_of_faulted he]
    exact ih

theorem exec_decEnd_of_faulted (he : s.decErr = true) : exec .decEnd s =
    .next (s.commandDec (DecUnit.reset, [.done .invalidCharacter s.decErrChar s.decErrPos])) := by
  rw [exec_decEnd, DecUnit.endMessage_of_faulted he]

/-- In FAULTED `DEC.PUSHL` is `DEC.END`: its character is ignored. -/
theorem exec_decPushl_of_faulted (he : s.decErr = true) (c : CharCode) : exec (.decPushl c) s = exec .decEnd s := by
  calc exec (.decPushl c) s
      = execAll [.decPush c, .decEnd] s := exec_pushlOn .dec c s
    _ = execAll [.decEnd] s := execAll_append_of_next (is := [.decPush c])
        (execAll_map_decPush_of_faulted he [c])
    _ = exec .decEnd s := execAll_singleton ..

/-- The trap return: what either command that ends a message does in FAULTED. -/
theorem exec_of_endsMessage_of_faulted {i : Instr} (hp : i.port = .dec) (hend : i.endsMessage = true)
    (he : s.decErr = true) : exec i s =
      .next (s.commandDec (DecUnit.reset, [.done .invalidCharacter s.decErrChar s.decErrPos])) := by
  obtain hi | ⟨c, hi⟩ := eq_endOn_or_eq_pushlOn_of_endsMessage hend
  · rw [hi, hp]
    exact exec_decEnd_of_faulted he
  · rw [hi, hp]
    exact (exec_decPushl_of_faulted he c).trans (exec_decEnd_of_faulted he)

/-- Settles O31, for the two commands at once. -/
theorem trapReturnReportsTheError : Obligations.TrapReturnReportsTheError := fun _ _ hp hend he =>
  exec_of_endsMessage_of_faulted hp hend he

/-- Settles O30, in the cases of a step: none, `RST`, a command of the encoder, and of the decoder one that ends the
message or a `DEC.PUSH`. -/
theorem faultedIgnoresPushes : Obligations.FaultedIgnoresPushes := by
  refine ⟨fun c s he => exec_decPush_of_faulted he c, fun s t he hstep => ?_⟩
  have hstay : t.toDecUnit = s.toDecUnit ∧ t.decRes = s.decRes →
      t.decErr = true ∧ sameDecRegs s t ∧ t.decRes = s.decRes := fun ⟨hreg, hres⟩ =>
    ⟨(congrArg DecUnit.decErr hreg).trans he, sameDecRegs_iff.mpr hreg, hres⟩
  obtain ⟨-, rfl⟩ | ⟨ms, hpend, rfl⟩ | ⟨p, w, ms, i, hpend, hdec, hexec⟩ := step_cases hstep
  · exact .inl (hstay ⟨rfl, rfl⟩)
  · exact .inr ⟨rfl, .rst, ms, hpend, .inl rfl⟩
  · have hport := port_of_decode hdec
    cases p with
    | enc =>
      obtain ⟨hreg, hres⟩ : SameUnit .dec t (s.setPending ms) := SameUnit.of_exec_other (by simp [hport]) hexec
      exact .inl (hstay ⟨hreg.symm, hres.symm⟩)
    | dec =>
      have he' : (s.setPending ms).decErr = true := he
      cases hend : i.endsMessage with
      | true =>
        rw [exec_of_endsMessage_of_faulted hport hend he'] at hexec
        cases hexec
        exact .inr ⟨rfl, .word .dec w, ms, hpend, .inr ⟨w, i, rfl, hdec, hend⟩⟩
      | false =>
        obtain ⟨c, hi⟩ := eq_pushOn_of_not_endsMessage hend
        rw [hi, hport, pushOn, exec_decPush_of_faulted he'] at hexec
        cases hexec
        exact .inl (hstay ⟨rfl, rfl⟩)

/-! ### The trap entry (60 R146) -/

theorem exec_decPush_of_invalid (he : s.decErr = false) (hc : rev c = none) : exec (.decPush c) s =
    .next (s.commandDec (s.toDecUnit.raiseInvalidCharacter c, [])) := by
  rw [exec_decPush, DecUnit.push_of_invalid he hc]

/-- Outside FAULTED `DEC.PUSHL` of an invalid character is the trap entry and the trap return. -/
theorem exec_decPushl_of_invalid (he : s.decErr = false) (hc : rev c = none) : exec (.decPushl c) s =
    .next (s.commandDec (DecUnit.reset, [.done .invalidCharacter c s.decIdx])) := by
  rw [exec_decPushl, DecUnit.pushl_eq_push_endMessage, DecUnit.push_of_invalid he hc,
    DecUnit.endMessage_of_faulted rfl]
  rfl

/-- The trap is precise: the characters before the first invalid one are accepted and drained as whole blocks, the
invalid one raises, and those after it are ignored. -/
theorem execAll_map_decPush_of_invalid {p : Nat} (hs : decAtBoundary s) (h : firstInvalid cs = some (c, p)) :
    ∃ (u : DecUnit) (vs : List Byte), u.decErr = false ∧ u.decIdx = p ∧ vs.length = 5 * (p / 8) ∧
      execAll ((cs.take p).map .decPush) s = .next (s.commandDec (u, vs.map .byte)) ∧
      execAll (cs.map .decPush) s = .next (s.commandDec (u.raiseInvalidCharacter c, vs.map .byte)) := by
  obtain ⟨hcp, hc, hbefore⟩ := firstInvalid_eq_some_iff.mp h
  obtain ⟨hp, rfl⟩ := List.getElem?_eq_some_iff.mp hcp
  have hlen : (cs.take p).length = p := List.length_take_of_le hp.le
  obtain ⟨u, vs, hrun, ⟨_, _, hfirst, -⟩ | ⟨-, he, hidx, hstream⟩⟩ := execAll_map_decPush hs (cs.take p)
  · simp [firstInvalid_eq_none_iff.mpr hbefore] at hfirst
  · have hwhole : vs.length = 5 * (p / 8) := by
      have hbits := hstream.1
      rw [List.length_map, hlen] at hbits
      omega
    refine ⟨u, vs, he, hidx.trans hlen, hwhole, hrun, ?_⟩
    calc execAll (cs.map .decPush) s
        = execAll ((cs.take p).map .decPush ++ .decPush cs[p] :: (cs.drop (p + 1)).map .decPush) s := by
          rw [← List.map_cons, ← List.map_append, List.getElem_cons_drop, List.take_append_drop]
      _ = execAll ((cs.drop (p + 1)).map .decPush)
            ((s.commandDec (u, vs.map .byte)).commandDec (u.raiseInvalidCharacter cs[p], [])) := by
          rw [execAll_append_of_next hrun, execAll, exec_decPush_of_invalid he (by simpa [isInvalid] using hc)]
          rfl
      _ = .next (s.commandDec (u.raiseInvalidCharacter cs[p], vs.map .byte)) := by
          rw [execAll_map_decPush_of_faulted rfl, State.commandDec_commandDec, List.append_nil]

/-- Settles O29: the first clause by the run up to the trap, the second by the two commands that can raise it. -/
theorem trapEntryRecordsTheError : Obligations.TrapEntryRecordsTheError := by
  refine ⟨fun s cs c p hs h => ?_, fun c s he hc => ⟨?_, exec_decPushl_of_invalid he hc⟩⟩
  · obtain ⟨u, vs, he, rfl, -, hbefore, hall⟩ := execAll_map_decPush_of_invalid hs h
    exact ⟨_, hbefore, he, rfl, hall⟩
  · rw [exec_decPush_of_invalid he hc, State.commandDec, List.map_nil, List.append_nil]
    rfl

/-! ### The result of a faulted message (60 R150) -/

/-- Settles O56: the bytes drained before the trap are followed by the error, and reading the port voids them. -/
theorem noPartialResult : Obligations.NoPartialResult := by
  intro cs s c p h hs hopen
  obtain ⟨u, vs, -, rfl, hlen, -, hrun⟩ := execAll_map_decPush_of_invalid hs h
  have hend : execAll (decMsg cs) s =
      .next (s.commandDec (DecUnit.reset, vs.map .byte ++ [.done .invalidCharacter c u.decIdx])) := by
    rw [← execAll_decMsgEnd, execAll_decMsgEnd_of_next hrun, DecUnit.endMessage_of_faulted rfl]
    rfl
  refine ⟨_, vs, hend, hlen, rfl, ?_⟩
  rw [State.commandDec_decRes, decResults, decResultsFrom_append, hopen, decResultsFrom_bytes_done]
  rfl

end Sys2Proof.Machine

/-! SUPPORT. The reset and hazards family (70_reset_and_hazards.md): `RST`, R170 to R172; the end of a message and of a
run, R171, R182 and R183. -/

namespace Sys2Proof.Machine

variable {s t : State} {p : Port} {i : Instr} {w : CmdWord} {ms : List HostMove}

/-! ### `RST` (70 R170 to R172) -/

theorem step_of_pending_rst (h : s.pending = .rst :: ms) : step s = .next (s.setPending ms).applyRst := by
  simp only [step, h, runMove]

/-- The mark of a reset is no beat (70 R170). -/
theorem beatsSeen_concat_reset {β : Type} (l : List (Seen β)) : beatsSeen (l ++ [.reset]) = beatsSeen l := by
  rw [beatsSeen_append]
  exact List.append_nil _

/-- A reset closes no message, so it adds no result (70 R172). -/
theorem encTexts_concat_reset (l : List (Seen EncBeat)) : encTexts (l ++ [.reset]) = encTexts l := by
  rw [encTexts, encTextsFrom_append]
  exact List.append_nil _

theorem decResults_concat_reset (l : List (Seen DecBeat)) : decResults (l ++ [.reset]) = decResults l := by
  rw [decResults, decResultsFrom_append]
  exact List.append_nil _

/-- After a reset the host discards the beats of the open message (70 R172). -/
theorem encOpenFrom_concat_reset (acc : List CharCode) (l : List (Seen EncBeat)) :
    encOpenFrom acc (l ++ [.reset]) = [] := encOpenFrom_append ..

theorem decOpenFrom_concat_reset (acc : List Byte) (l : List (Seen DecBeat)) :
    decOpenFrom acc (l ++ [.reset]) = [] := decOpenFrom_append ..

/-- Settles O6: the state after `RST` is known, and in a step that makes no move nothing changes. -/
theorem rstClearsEveryRegister : Obligations.RstClearsEveryRegister := by
  refine ⟨fun s ms h => ⟨_, step_of_pending_rst h, rfl, rfl, rfl, rfl, rfl, rfl, rfl, rfl, rfl,
    beatsSeen_concat_reset _, beatsSeen_concat_reset _⟩, fun s t hstep hchange => ?_⟩
  obtain ⟨-, rfl⟩ | ⟨ms, hpend, -⟩ | ⟨p, w, ms, i, hpend, hdec, -⟩ := step_cases hstep
  · exact absurd ⟨sameEncRegs_iff.mpr rfl, sameDecRegs_iff.mpr rfl⟩ hchange
  · exact ⟨_, ms, hpend, .inl rfl⟩
  · exact ⟨_, ms, hpend, .inr ⟨p, w, i, rfl, hdec⟩⟩

/-- Settles O59: `RST` adds only its mark to either port, and reading a port discards there what is still open. -/
theorem resetAbandonsTheMessage : Obligations.ResetAbandonsTheMessage := fun _ _ h =>
  ⟨_, step_of_pending_rst h, encAtBoundary_iff.mpr rfl, decAtBoundary_iff.mpr rfl, beatsSeen_concat_reset _,
    beatsSeen_concat_reset _, encTexts_concat_reset _, decResults_concat_reset _, encOpenFrom_concat_reset [] _,
    decOpenFrom_concat_reset [] _⟩

/-! ### The command that ends a message (70 R171) -/

theorem DecUnit.endMessage_eq_reset_done (u : DecUnit) : ∃ bs st c n,
    u.endMessage = (DecUnit.reset, bs ++ [.done st c n]) := by
  obtain ⟨-, hr⟩ | ⟨-, hr⟩ := u.endMessage_cases
  · exact ⟨[], _, _, _, hr⟩
  · exact ⟨_, _, _, _, hr⟩

/-- A command that ends an encoder message clears the encoder, and its last beat is the `DONE`. -/
theorem exec_enc_of_endsMessage (hp : i.port = .enc) (hend : i.endsMessage = true) (s : State) : ∃ bs,
    exec i s = .next (s.commandEnc (EncUnit.reset, bs ++ [.done .ok])) :=
  match i, hp, hend with
  | .encPushl _, _, _ => ⟨_, rfl⟩
  | .encEnd, _, _ => ⟨_, rfl⟩

/-- A command that ends a decoder message clears the decoder, and its last beat is a `DONE`. -/
theorem exec_dec_of_endsMessage (hp : i.port = .dec) (hend : i.endsMessage = true) (s : State) : ∃ bs st c n,
    exec i s = .next (s.commandDec (DecUnit.reset, bs ++ [.done st c n])) := by
  obtain hi | ⟨c, hi⟩ := eq_endOn_or_eq_pushlOn_of_endsMessage hend
  · obtain ⟨bs, st, c, n, hr⟩ := s.toDecUnit.endMessage_eq_reset_done
    rw [hi, hp, endOn, exec_decEnd, hr]
    exact ⟨bs, st, c, n, rfl⟩
  · obtain ⟨bs, st, c', n, hr⟩ := (s.toDecUnit.push c).1.endMessage_eq_reset_done
    rw [hi, hp, pushlOn, exec_decPushl, DecUnit.pushl_eq_push_endMessage, hr, ← List.append_assoc]
    exact ⟨_, st, c', n, rfl⟩

/-- Settles O7, for the two units in turn. -/
theorem resetValuesAreZero : Obligations.ResetValuesAreZero := by
  refine ⟨rfl, rfl, rfl, rfl, rfl, rfl, rfl, rfl, fun i s hend => ?_⟩
  cases hp : i.port with
  | enc =>
    obtain ⟨_, hr⟩ := exec_enc_of_endsMessage hp hend s
    exact ⟨_, hr, fun _ => sameEncRegs_iff.mpr rfl, nofun⟩
  | dec =>
    obtain ⟨_, _, _, _, hr⟩ := exec_dec_of_endsMessage hp hend s
    exact ⟨_, hr, nofun, fun _ => sameDecRegs_iff.mpr rfl⟩

/-! ### Every message finishes (70 R182) -/

/-- A step on a command's word is the execution of the command. -/
theorem step_of_decode (h : s.pending = .word p w :: ms) (hd : decode p w = .ok i) :
    step s = exec i (s.setPending ms) := by
  rw [step_of_pending_word h, runWord, hd]

theorem length_encMsg {b : List Byte} (h : b ≠ []) : (encMsg b).length = b.length := by
  cases b using List.reverseRecOn with
  | nil => exact absurd rfl h
  | append_singleton b d => simp [encMsg_concat]

/-- How many beats a decoder message can have: the bytes of its characters, or of the whole blocks before the first
invalid one, and one `DONE`. -/
theorem execAll_decMsgEnd_length_le (hs : decAtBoundary s) (cs : List CharCode) : ∃ bs : List DecBeat,
    execAll (decMsgEnd cs) s = .next (s.commandDec (DecUnit.reset, bs)) ∧ bs.length ≤ 5 * cs.length / 8 + 1 := by
  cases h : firstInvalid cs with
  | none =>
    obtain ⟨vs, hdec, hrun⟩ := execAll_decMsgEnd_of_valid hs h
    have hlen := hdec.1
    rw [List.length_map] at hlen
    exact ⟨_, hrun, by simp [hlen]⟩
  | some x =>
    obtain ⟨u, vs, -, -, hlen, -, hrun⟩ := execAll_map_decPush_of_invalid hs h
    obtain ⟨hx, -⟩ := List.getElem?_eq_some_iff.mp (firstInvalid_eq_some_iff.mp h).1
    have hbytes : vs.length ≤ 5 * cs.length / 8 := by omega
    have hend := execAll_decMsgEnd_of_next hrun
    rw [DecUnit.endMessage_of_faulted rfl] at hend
    exact ⟨_, hend, by simpa using hbytes⟩

/-- Settles O57: a command's word decodes to it and no command stops; the beats of whole messages are counted. -/
theorem everyMessageFinishes : Obligations.EveryMessageFinishes := by
  refine ⟨fun s i ms h => ?_, fun b s hs => ⟨length_encMsg, by simp [encMsgEnd], ?_⟩,
    fun cs s hs => ⟨length_decMsg, by simp [decMsgEnd], ?_⟩⟩
  · rw [step_of_decode h (decode_eq_ok_iff.mpr ⟨rfl, rfl⟩)]
    exact exec_next i _
  · obtain ⟨gs, henc, hrun⟩ := execAll_encMsgEnd_of_boundary hs b
    refine ⟨_, (execAll_encMsgEnd b s).symm.trans hrun, hrun, ?_⟩
    simp [henc.1, ceilDiv, Nat.add_assoc]
  · obtain ⟨bs, hrun, hlen⟩ := execAll_decMsgEnd_length_le hs cs
    refine ⟨_, (execAll_decMsgEnd cs s).symm.trans hrun, hrun, ?_⟩
    simpa [Nat.add_assoc] using hlen

/-! ### Complete runs (70 R183) -/

/-- The unit on a port is at a message boundary, and the host has no open message of it. -/
def AllClosed : Port → State → Prop
  | .enc, s => encAtBoundary s ∧ encOpenFrom [] s.encRes = []
  | .dec, s => decAtBoundary s ∧ decOpenFrom [] s.decRes = []

theorem allClosed_applyRst (p : Port) (s : State) : AllClosed p s.applyRst := by
  cases p with
  | enc => exact ⟨encAtBoundary_iff.mpr rfl, encOpenFrom_concat_reset ..⟩
  | dec => exact ⟨decAtBoundary_iff.mpr rfl, decOpenFrom_concat_reset ..⟩

theorem AllClosed.of_sameUnit (h : AllClosed p s) (hsame : SameUnit p t s) : AllClosed p t := by
  cases p with
  | enc => exact ⟨encAtBoundary_iff.mpr (hsame.1 ▸ encAtBoundary_iff.mp h.1), hsame.2 ▸ h.2⟩
  | dec => exact ⟨decAtBoundary_iff.mpr (hsame.1 ▸ decAtBoundary_iff.mp h.1), hsame.2 ▸ h.2⟩

/-- A command that ends a message closes it, whatever was open before. -/
theorem allClosed_of_endsMessage (hend : i.endsMessage = true) (he : exec i s = .next t) : AllClosed i.port t := by
  cases hp : i.port with
  | enc =>
    obtain ⟨bs, hr⟩ := exec_enc_of_endsMessage hp hend s
    rw [hr] at he
    cases he
    refine ⟨encAtBoundary_iff.mpr rfl, ?_⟩
    rw [State.commandEnc_encRes, List.map_append, ← List.append_assoc, encOpenFrom_append]
    rfl
  | dec =>
    obtain ⟨bs, st, c, n, hr⟩ := exec_dec_of_endsMessage hp hend s
    rw [hr] at he
    cases he
    refine ⟨decAtBoundary_iff.mpr rfl, ?_⟩
    rw [State.commandDec_decRes, List.map_append, ← List.append_assoc, decOpenFrom_append]
    rfl

theorem runCompleteFrom_word_of_decode (hd : decode p w = .ok i) (done : Bool) (ms : List HostMove) :
    runCompleteFrom p done (.word p w :: ms) = runCompleteFrom p i.endsMessage ms := by
  simp only [runCompleteFrom, hd, if_true]

theorem runCompleteFrom_word_of_ne {q : Port} (h : q ≠ p) (done : Bool) (w : CmdWord) (ms : List HostMove) :
    runCompleteFrom p done (.word q w :: ms) = runCompleteFrom p done ms := by
  simp only [runCompleteFrom, h, if_false]

/-- Every move keeps the invariant that a unit whose moves so far are a complete run has all its messages closed. -/
theorem allClosed_of_runCompleteFrom {done : Bool} (h : done = true → AllClosed p s)
    (hc : runCompleteFrom p done ms = true) (hr : runMoves ms s = .next t) : AllClosed p t := by
  induction ms generalizing s done with
  | nil =>
    cases hr
    exact h hc
  | cons m ms ih =>
    obtain ⟨v, hm, hr'⟩ := runMoves_cons_eq_next_iff.mp hr
    obtain ⟨rfl, rfl⟩ | ⟨q, w, i, rfl, hd, rfl, he⟩ := runMove_cases hm
    · exact ih (fun _ => allClosed_applyRst p s) hc hr'
    · by_cases hq : i.port = p
      · subst hq
        rw [runCompleteFrom_word_of_decode hd] at hc
        exact ih (fun hend => allClosed_of_endsMessage hend he) hc hr'
      · rw [runCompleteFrom_word_of_ne hq] at hc
        exact ih (fun hdone => (h hdone).of_sameUnit (SameUnit.of_exec_other hq he)) hc hr'

/-- Settles O58, for the two units in turn. -/
theorem completeRunsEndAtBoundary : Obligations.CompleteRunsEndAtBoundary := fun _ _ _ hr =>
  ⟨fun hs hopen hc => allClosed_of_runCompleteFrom (p := .enc) (fun _ => ⟨hs, hopen⟩) hc hr,
    fun hs hopen hc => allClosed_of_runCompleteFrom (p := .dec) (fun _ => ⟨hs, hopen⟩) hc hr⟩

end Sys2Proof.Machine

/-! SUPPORT. The invariants of each unit and of its port, kept by every step (10 R23, sections 3 and 4 of 40 and 41). -/

namespace Sys2Proof.Machine

variable {s t u : State} {p : Port} {i : Instr} {w : CmdWord} {ms : List HostMove}

/-! ### Properties of one unit (00 R2) -/

/-- What makes every step keep a property of one unit and its port: it is about this unit and its port alone, and `RST`,
the unit's `PUSH` and the commands that end its messages keep it. -/
structure KeptBy (p : Port) (P : State → Prop) : Prop where
  of_sameUnit : ∀ s u, SameUnit p s u → P u → P s
  applyRst : ∀ s, P s → P s.applyRst
  push : ∀ d s t, P s → Machine.exec (pushOn p d) s = .next t → P t
  ends : ∀ i s t, i.port = p → i.endsMessage = true → P s → Machine.exec i s = .next t → P t

section KeptBy

variable {P : State → Prop} (hP : KeptBy p P)
include hP

theorem KeptBy.exec (h : P s) (hexec : exec i s = .next t) : P t := by
  by_cases hi : i.port = p
  · cases hend : i.endsMessage with
    | true => exact hP.ends i s t hi hend h hexec
    | false =>
      obtain ⟨d, hd⟩ := eq_pushOn_of_not_endsMessage hend
      rw [hd, hi] at hexec
      exact hP.push d s t h hexec
  · exact hP.of_sameUnit _ _ (SameUnit.of_exec_other hi hexec) h

theorem KeptBy.execAll {is : List Instr} (h : P s) (hrun : execAll is s = .next t) : P t := by
  induction is generalizing s with
  | nil =>
    cases hrun
    exact h
  | cons i is ih =>
    obtain ⟨u, hu⟩ := exec_next i s
    rw [Machine.execAll, hu] at hrun
    exact ih (hP.exec h hu) hrun

theorem KeptBy.step (h : P s) (hstep : step s = .next t) : P t := by
  have hset (ms : List HostMove) : P (s.setPending ms) := hP.of_sameUnit _ _ (by cases p <;> exact ⟨rfl, rfl⟩) h
  obtain ⟨-, rfl⟩ | ⟨ms, -, rfl⟩ | ⟨q, w, ms, i, -, -, hexec⟩ := step_cases hstep
  · exact h
  · exact hP.applyRst _ (hset ms)
  · exact hP.exec (hset ms) hexec

end KeptBy

/-! ### The registers (10 R23) -/

/-- I-E2. -/
def EncUnit.Inv (u : EncUnit) : Prop := u.encAcc.toNat % 2 ^ (40 - 8 * u.encPos.val) = 0

/-- I-D2 to I-D4. -/
def DecUnit.Inv (u : DecUnit) : Prop :=
  u.decAcc.toNat % 2 ^ (40 - 5 * u.decPos.val) = 0 ∧
  (u.decErr = false → u.decIdx % 8 = u.decPos.val ∧ u.decErrChar = 0 ∧ u.decErrPos = 0) ∧
  (u.decErr = true → u.decAcc = 0 ∧ u.decPos = 0 ∧ rev u.decErrChar = none ∧ u.decErrPos = u.decIdx)

theorem unitInv_iff : UnitInv s ↔ s.toEncUnit.Inv ∧ s.toDecUnit.Inv := Iff.rfl

theorem EncUnit.inv_reset : EncUnit.reset.Inv := by simp [EncUnit.Inv]

theorem DecUnit.inv_reset : DecUnit.reset.Inv := by simp [DecUnit.Inv]

/-- An element placed in a lane leaves zeros below the lane. -/
theorem toNat_or_setWidth_shiftLeft_mod {n w p : Nat} (hp : p + w ≤ n) {acc : BitVec n}
    (h : acc.toNat % 2 ^ (p + w) = 0) (v : BitVec w) : (acc ||| v.setWidth n <<< p).toNat % 2 ^ p = 0 := by
  have hacc : 2 ^ p ∣ acc.toNat := (Nat.pow_dvd_pow 2 (Nat.le_add_right p w)).trans (Nat.dvd_of_mod_eq_zero h)
  rw [toNat_or_setWidth_shiftLeft hp h]
  exact Nat.mod_eq_zero_of_dvd (hacc.add (Nat.dvd_mul_left _ _))

theorem EncUnit.Inv.push {u : EncUnit} (h : u.Inv) (d : Byte) : (u.push d).1.Inv := by
  obtain ⟨-, hr⟩ | ⟨hpos, hr⟩ := u.push_cases d
  · rw [hr]
    exact EncUnit.inv_reset
  · have hval : (u.encPos + 1).val = u.encPos.val + 1 := Fin.val_add_one_of_lt (Fin.lt_last_iff_ne_last.mpr hpos)
    have htail : 40 - 8 * u.encPos.val = 32 - 8 * u.encPos.val + 8 := by omega
    have hbelow : 40 - 8 * (u.encPos.val + 1) = 32 - 8 * u.encPos.val := by omega
    rw [EncUnit.Inv, htail] at h
    rw [hr, EncUnit.Inv, hval, hbelow]
    exact toNat_or_setWidth_shiftLeft_mod (byteLane_fits _) h d

theorem DecUnit.Inv.push {u : DecUnit} (h : u.Inv) (c : CharCode) : (u.push c).1.Inv := by
  obtain ⟨he, hr⟩ | ⟨-, hc, hr⟩ | ⟨he, v, -, hr⟩ := u.push_cases c
  · rw [hr]
    exact h
  · simp [hr, DecUnit.Inv, DecUnit.raiseInvalidCharacter_eq, hc]
  · obtain ⟨htail, hcount, -⟩ := h
    obtain ⟨hidx, herr⟩ := hcount he
    obtain ⟨hpos, ha⟩ | ⟨hpos, ha⟩ := u.accept_cases v
    · have hval : u.decPos.val = 7 := congrArg Fin.val hpos
      have hwrap : (u.decIdx + 1) % 8 = 0 := by omega
      rw [hr, ha]
      simp [DecUnit.Inv, he, hwrap, herr]
    · have hval : (u.decPos + 1).val = u.decPos.val + 1 := Fin.val_add_one_of_lt (Fin.lt_last_iff_ne_last.mpr hpos)
      have hlane : 40 - 5 * u.decPos.val = 35 - 5 * u.decPos.val + 5 := by omega
      have hbelow : 40 - 5 * (u.decPos.val + 1) = 35 - 5 * u.decPos.val := by omega
      rw [hlane] at htail
      rw [hr, ha]
      refine ⟨?_, fun _ => ⟨?_, herr⟩, fun h => by simp [he] at h⟩
      · rw [hval, hbelow]
        exact toNat_or_setWidth_shiftLeft_mod (groupLane_fits _) htail v
      · have hlt : (u.decPos + 1).val < 8 := (u.decPos + 1).isLt
        simp only [hval] at hlt ⊢
        omega

theorem keptBy_encUnit_inv : KeptBy .enc fun s => s.toEncUnit.Inv where
  of_sameUnit s u hsame h := hsame.1 ▸ h
  applyRst s _ := EncUnit.inv_reset
  push d s t h hexec := by
    cases hexec
    exact h.push d
  ends i s t hi hend _ hexec := by
    obtain ⟨bs, hr⟩ := exec_enc_of_endsMessage hi hend s
    rw [hr] at hexec
    cases hexec
    exact EncUnit.inv_reset

theorem keptBy_decUnit_inv : KeptBy .dec fun s => s.toDecUnit.Inv where
  of_sameUnit s u hsame h := hsame.1 ▸ h
  applyRst s _ := DecUnit.inv_reset
  push c s t h hexec := by
    cases hexec
    exact h.push c
  ends i s t hi hend _ hexec := by
    obtain ⟨bs, st, c, n, hr⟩ := exec_dec_of_endsMessage hi hend s
    rw [hr] at hexec
    cases hexec
    exact DecUnit.inv_reset

/-- Settles O38: nothing is placed and nothing seen. -/
theorem invariantsHoldAtReset : Obligations.InvariantsHoldAtReset :=
  ⟨unitInv_iff.mpr ⟨EncUnit.inv_reset, DecUnit.inv_reset⟩, rfl, rfl, rfl, rfl⟩

/-- Settles O39, for the two units in turn: the placements leave zeros below their lane, the counters move together, and
the trap entry records what I-D4 asks for. -/
theorem everyStepKeepsUnitInvariants : Obligations.EveryStepKeepsUnitInvariants := by
  refine ⟨invariantsHoldAtReset.1, fun s t h hstep => ?_⟩
  obtain ⟨henc, hdec⟩ := unitInv_iff.mp h
  exact ⟨unitInv_iff.mpr ⟨keptBy_encUnit_inv.step henc hstep, keptBy_decUnit_inv.step hdec hstep⟩,
    Nat.le_of_lt_succ t.encPos.isLt, Nat.le_of_lt_succ t.decPos.isLt⟩

/-! ### The ports (sections 3 and 4 of 40 and 41, 60 R150) -/

theorem encOpenFrom_chars (acc cs : List CharCode) :
    encOpenFrom acc ((cs.map EncBeat.char).map .beat) = acc ++ cs := by
  induction cs generalizing acc with
  | nil => simp [encOpenFrom]
  | cons c cs ih => simpa [encOpenFrom] using ih (acc ++ [c])

theorem decOpenFrom_bytes (acc vs : List Byte) :
    decOpenFrom acc ((vs.map DecBeat.byte).map .beat) = acc ++ vs := by
  induction vs generalizing acc with
  | nil => simp [decOpenFrom]
  | cons v vs ih => simpa [decOpenFrom] using ih (acc ++ [v])

/-- What `PortInv` says of `ENC.RES`. -/
def EncPortInv (s : State) : Prop :=
  s.encRes.all encSeenLegal = true ∧ (encOpenFrom [] s.encRes).length % 8 = 0

/-- What `PortInv` says of `DEC.RES`. -/
def DecPortInv (s : State) : Prop :=
  s.decRes.all decSeenLegal = true ∧ (decOpenFrom [] s.decRes).length = 5 * (s.decIdx / 8)

theorem portInv_iff : PortInv s ↔ EncPortInv s ∧ DecPortInv s := by
  rw [EncPortInv, DecPortInv, and_and_and_comm, and_assoc]

theorem all_encSeenLegal_append {l : List (Seen EncBeat)} {bs : List EncBeat}
    (hl : l.all encSeenLegal = true) (hbs : ∀ b ∈ bs, b = .done .ok ∨ ∃ k, b = .char (alpha k)) :
    (l ++ bs.map Seen.beat).all encSeenLegal = true := by
  have hlegal : ∀ b ∈ bs, encSeenLegal (.beat b) = true := by
    intro b hb
    obtain rfl | ⟨k, rfl⟩ := hbs b hb
    · rfl
    · exact List.any_eq_true.mpr ⟨k.toFin, List.mem_finRange _, decide_eq_true rfl⟩
  simpa [List.all_append, hl, List.all_map] using hlegal

theorem keptBy_encPortInv : KeptBy .enc EncPortInv where
  of_sameUnit s u hsame h := by rwa [EncPortInv, ← hsame.2]
  applyRst s h := by
    refine ⟨by simp [h.1, encSeenLegal], ?_⟩
    rw [State.applyRst_encRes, encOpenFrom_concat_reset]
    rfl
  push d s t h hexec := by
    obtain ⟨r, hr, hbeats⟩ := exec_enc_beats (i := .encPush d) rfl s
    refine ⟨?_, ?_⟩
    · rw [pushOn, hr] at hexec
      cases hexec
      exact all_encSeenLegal_append h.1 hbeats
    · cases hexec
      rw [State.commandEnc_encRes, encOpenFrom_append]
      obtain ⟨-, hr⟩ | ⟨-, hr⟩ := s.toEncUnit.push_cases d
      · have hblock : encGroups 5 = 8 := rfl
        rw [hr, encEmit_eq_lanes, encOpenFrom_chars, List.length_append, List.length_map, length_lanes, hblock]
        simpa using h.2
      · rw [hr]
        exact h.2
  ends i s t hi hend h hexec := by
    obtain ⟨r, hr, hbeats⟩ := exec_enc_beats hi s
    have hclosed : AllClosed .enc t := hi ▸ allClosed_of_endsMessage hend hexec
    rw [hr] at hexec
    cases hexec
    exact ⟨all_encSeenLegal_append h.1 hbeats, by rw [hclosed.2]; rfl⟩

theorem all_decSeenLegal_append {l : List (Seen DecBeat)} {bs : List DecBeat}
    (hl : l.all decSeenLegal = true) (hbs : ∀ b ∈ bs, b.legal = true) :
    (l ++ bs.map Seen.beat).all decSeenLegal = true := by
  simpa [List.all_append, hl, List.all_map, decSeenLegal] using hbs

theorem legal_of_mem_decEmit {acc : Acc} {n : Nat} {b : DecBeat} (h : b ∈ decEmit acc n) : b.legal = true := by
  obtain ⟨v, rfl⟩ := mem_decEmit h
  rfl

/-- The end of a message without an error emits only legal beats. -/
theorem legal_of_mem_decEmit_append_done {acc : Acc} {n : Nat} {b : DecBeat}
    (h : b ∈ decEmit acc n ++ [.done .ok 0 0]) : b.legal = true := by
  obtain h | h := List.mem_append.mp h
  · exact legal_of_mem_decEmit h
  · rw [List.mem_singleton.mp h]
    rfl

/-- The recorded error is legal (I-D4), and so the end of every message. -/
theorem DecUnit.Inv.legal_endMessage {u : DecUnit} (h : u.Inv) : ∀ b ∈ u.endMessage.2, b.legal = true := by
  intro b hb
  obtain ⟨he, hr⟩ | ⟨-, hr⟩ := u.endMessage_cases
  · obtain ⟨-, -, hc, -⟩ := h.2.2 he
    rw [hr] at hb
    rw [List.mem_singleton.mp hb, DecBeat.legal, isInvalid, hc]
    rfl
  · rw [hr] at hb
    exact legal_of_mem_decEmit_append_done hb

/-- `DEC.PUSH` drains exactly the full blocks. -/
theorem DecUnit.Inv.push_beats {u : DecUnit} (h : u.Inv) (c : CharCode) : ∃ vs : List Byte,
    (u.push c).2 = vs.map .byte ∧ 5 * (u.decIdx / 8) + vs.length = 5 * ((u.push c).1.decIdx / 8) := by
  obtain ⟨-, hr⟩ | ⟨-, -, hr⟩ | ⟨he, v, -, hr⟩ := u.push_cases c
  · exact ⟨[], by simp [hr]⟩
  · exact ⟨[], by simp [hr, DecUnit.raiseInvalidCharacter_eq]⟩
  · obtain ⟨hidx, -⟩ := h.2.1 he
    obtain ⟨hpos, ha⟩ | ⟨hpos, ha⟩ := u.accept_cases v
    · have hval : u.decPos.val = 7 := congrArg Fin.val hpos
      have hblock : decBytes 8 = 5 := rfl
      refine ⟨_, by rw [hr, ha, decEmit_eq_lanes], ?_⟩
      rw [hr, ha, length_lanes, hblock]
      simp only
      omega
    · have hval : u.decPos.val ≠ 7 := fun h => hpos (Fin.ext h)
      have hlt : u.decPos.val < 8 := u.decPos.isLt
      refine ⟨[], by rw [hr, ha]; rfl, ?_⟩
      rw [hr, ha]
      simp only [List.length_nil]
      omega

theorem DecUnit.Inv.legal_push {u : DecUnit} (h : u.Inv) (c : CharCode) : ∀ b ∈ (u.push c).2, b.legal = true := by
  intro b hb
  obtain ⟨vs, hbeats, -⟩ := h.push_beats c
  rw [hbeats] at hb
  obtain ⟨v, -, rfl⟩ := List.mem_map.mp hb
  rfl

/-- From a state that meets its invariants the decoder emits only legal beats. -/
theorem exec_dec_legal (hi : i.port = .dec) (h : s.toDecUnit.Inv) : ∃ r : DecUnit × List DecBeat,
    exec i s = .next (s.commandDec r) ∧ ∀ b ∈ r.2, b.legal = true := by
  cases i with
  | encPush | encPushl | encEnd => cases hi
  | decPush c => exact ⟨_, rfl, h.legal_push c⟩
  | decPushl c =>
    refine ⟨_, exec_decPushl c s, fun b hb => ?_⟩
    rw [DecUnit.pushl_eq_push_endMessage] at hb
    exact (List.mem_append.mp hb).elim (h.legal_push c b) ((h.push c).legal_endMessage b)
  | decEnd => exact ⟨_, rfl, h.legal_endMessage⟩

theorem keptBy_decPortInv : KeptBy .dec fun s => s.toDecUnit.Inv ∧ DecPortInv s where
  of_sameUnit s u hsame h := by rwa [DecPortInv, ← hsame.1, ← hsame.2]
  applyRst s h := by
    refine ⟨DecUnit.inv_reset, by simp [h.2.1, decSeenLegal], ?_⟩
    rw [State.applyRst_decRes, decOpenFrom_concat_reset, State.applyRst_toDecUnit, DecUnit.reset_decIdx]
    rfl
  push c s t h hexec := by
    obtain ⟨hinv, hlegal, hopen⟩ := h
    obtain ⟨vs, hbeats, hlen⟩ := hinv.push_beats c
    cases hexec
    refine ⟨hinv.push c, ?_, ?_⟩
    · exact all_decSeenLegal_append hlegal (hinv.legal_push c)
    · rw [State.commandDec_decRes, decOpenFrom_append, hbeats, decOpenFrom_bytes, List.length_append, hopen]
      exact hlen
  ends i s t hi hend h hexec := by
    obtain ⟨hinv, hlegal, -⟩ := h
    have hinv' := keptBy_decUnit_inv.ends i s t hi hend hinv hexec
    obtain ⟨hbound, hopen⟩ : AllClosed .dec t := hi ▸ allClosed_of_endsMessage hend hexec
    obtain ⟨-, -, hidx, -⟩ := hbound
    refine ⟨hinv', ?_, by rw [hopen, hidx]; rfl⟩
    obtain ⟨r, hr, hbeats⟩ := exec_dec_legal hi hinv
    rw [hr] at hexec
    cases hexec
    exact all_decSeenLegal_append hlegal hbeats

/-- Settles O40, for the two ports in turn: only `PUSH` leaves a message open, and it drains full blocks. -/
theorem everyStepKeepsPortHistories : Obligations.EveryStepKeepsPortHistories := by
  intro s t hunit hport hstep
  obtain ⟨-, hdec⟩ := unitInv_iff.mp hunit
  obtain ⟨henc', hdec'⟩ := portInv_iff.mp hport
  exact portInv_iff.mpr ⟨keptBy_encPortInv.step henc' hstep, (keptBy_decPortInv.step ⟨hdec, hdec'⟩ hstep).2⟩

end Sys2Proof.Machine

/-! SUPPORT. Words, steps and moves: 30 R50 to R52, 20 R45, 93 U1. -/

namespace Sys2Proof.Machine

variable {s t u : State} {p : Port} {i : Instr} {w : CmdWord} {ms : List HostMove} {m : HostMove}

/-! ### Command words (30 R50 to R53) -/

/-- Settles O1: the decoder reads a command from the command's own word, for every command and datum. -/
theorem decodeEncodeAgree : Obligations.DecodeEncodeAgree := fun _ _ => decode_eq_ok_iff.mpr ⟨rfl, rfl⟩

/-- Settles O4: each word is what `encode` gives for its command. -/
theorem wordsFromTheTable : Obligations.WordsFromTheTable :=
  ⟨decode_eq_ok_iff.mpr ⟨rfl, rfl⟩, decode_eq_ok_iff.mpr ⟨rfl, rfl⟩, decode_eq_ok_iff.mpr ⟨rfl, rfl⟩,
    decode_eq_ok_iff.mpr ⟨rfl, rfl⟩, decode_eq_ok_iff.mpr ⟨rfl, rfl⟩, decode_eq_ok_iff.mpr ⟨rfl, rfl⟩⟩

/-- Settles O5: a step on a command's word takes it off the moves and runs the command. -/
theorem stepRunsPresentedCommand : Obligations.StepRunsPresentedCommand := fun _ _ _ _ _ h hd _ => step_of_decode h hd

/-! ### Runs of moves (20 R45, 93 U1) -/

/-- No move reads or writes the moves still to come: it goes on from every state, or it is refused in every state. -/
theorem runMove_next_or_refused (m : HostMove) :
    (∃ f : State → State, ∀ s ms, runMove m (s.setPending ms) = .next ((f s).setPending ms)) ∨
    (∃ r, ∀ s, runMove m s = .refused r) := by
  cases m with
  | rst => exact .inl ⟨State.applyRst, fun _ _ => rfl⟩
  | word p w =>
    cases hd : decode p w with
    | error why => exact .inr ⟨_, fun s => by rw [runMove, runWord, hd]⟩
    | ok i =>
      left
      cases hp : i.port with
      | enc =>
        obtain ⟨f, hf⟩ := exec_enc hp
        exact ⟨fun s => s.commandEnc (f s.toEncUnit), fun s ms => by rw [runMove_word_of_decode hd, hf]; rfl⟩
      | dec =>
        obtain ⟨f, hf⟩ := exec_dec hp
        exact ⟨fun s => s.commandDec (f s.toDecUnit), fun s ms => by rw [runMove_word_of_decode hd, hf]; rfl⟩

theorem runMoves_cons_of_next (h : runMove m s = .next t) : runMoves (m :: ms) s = runMoves ms t := by
  rw [runMoves, h]

theorem runMoves_cons_of_refused {r : Refusal} (h : runMove m s = .refused r) :
    runMoves (m :: ms) s = .refused r := by
  simp only [runMoves, h]

theorem run_succ_of_step_next {k : Nat} (h : step s = .next t) :
    Host.Core.run core (k + 1) s = Host.Core.run core k t := by
  have hcore : core.step s = .next t := h
  simp only [Host.Core.run, hcore]

theorem run_succ_of_step_refused {k : Nat} {r : Refusal} (h : step s = .refused r) :
    Host.Core.run core (k + 1) s = .refused r := by
  have hcore : core.step s = .refused r := h
  simp only [Host.Core.run, hcore]

/-- Settles O8, by induction over the moves: a step takes the first move off and makes it. -/
theorem stepsMakeTheMoves : Obligations.StepsMakeTheMoves := by
  intro s ms rest
  induction ms generalizing s with
  | nil => rfl
  | cons m ms ih =>
    have hstep : step (s.setPending (m :: (ms ++ rest))) = runMove m (s.setPending (ms ++ rest)) := rfl
    obtain ⟨f, hf⟩ | ⟨r, hr⟩ := runMove_next_or_refused m
    · exact (run_succ_of_step_next (hstep.trans (hf ..))).trans
        ((ih (f s)).trans (runMoves_cons_of_next (hf s rest)).symm)
    · exact (run_succ_of_step_refused (hstep.trans (hr _))).trans (runMoves_cons_of_refused (hr _)).symm

theorem runMove_next_iff (m : HostMove) (s : State) : (∃ t, runMove m s = .next t) ↔ m.admissible = true := by
  cases m with
  | rst => exact iff_of_true ⟨_, rfl⟩ rfl
  | word p w =>
    rw [HostMove.admissible, admissible_iff_exists_decode_eq_ok p]
    constructor
    · rintro ⟨t, ht⟩
      obtain ⟨hm, -⟩ | ⟨_, _, i, hm, hd, -⟩ := runMove_cases ht
      · cases hm
      · cases hm
        exact ⟨i, hd⟩
    · rintro ⟨i, hd⟩
      rw [runMove_word_of_decode hd]
      exact exec_next i s

/-- Settles O9, by induction over the moves: whether a move goes on does not depend on the state. -/
theorem admissibleRunsAreNeverRefused : Obligations.AdmissibleRunsAreNeverRefused := by
  intro s ms
  induction ms generalizing s with
  | nil => exact iff_of_true rfl ⟨s, rfl⟩
  | cons m ms ih =>
    rw [admissible, List.all_cons, Bool.and_eq_true, ← runMove_next_iff m s]
    simp only [runMoves_cons_eq_next_iff]
    constructor
    · rintro ⟨⟨v, hv⟩, hms⟩
      exact ((ih v).mp hms).imp fun t ht => ⟨v, hv, ht⟩
    · rintro ⟨t, v, hv, ht⟩
      exact ⟨⟨v, hv⟩, (ih v).mpr ⟨t, ht⟩⟩

/-! ### What a command depends on and what it changes (40 R82, 41 R107) -/

/-- Settles O14: an encoder command is a function of the encoder's registers. -/
theorem encoderFrame : Obligations.EncoderFrame := by
  intro i s u hi hregs
  obtain ⟨f, hf⟩ := exec_enc hi
  have hu : u.toEncUnit = s.toEncUnit := sameEncRegs_iff.mp hregs
  refine ⟨_, _, (f s.toEncUnit).2.map .beat, hf s, hf u, sameEncRegs_iff.mpr ?_, rfl, ?_,
    sameDecRegs_iff.mpr rfl, rfl, rfl⟩
  · simp [hu]
  · rw [State.commandEnc_encRes, hu]

/-- Settles O26: a decoder command is a function of the decoder's registers. -/
theorem decoderFrame : Obligations.DecoderFrame := by
  intro i s u hi hregs
  obtain ⟨f, hf⟩ := exec_dec hi
  have hu : u.toDecUnit = s.toDecUnit := sameDecRegs_iff.mp hregs
  refine ⟨_, _, (f s.toDecUnit).2.map .beat, hf s, hf u, sameDecRegs_iff.mpr ?_, rfl, ?_,
    sameEncRegs_iff.mpr rfl, rfl, rfl⟩
  · simp [hu]
  · rw [State.commandDec_decRes, hu]

/-- Settles O15, for the two ports in turn. -/
theorem pushlIsPushThenEnd : Obligations.PushlIsPushThenEnd := ⟨exec_pushlOn .enc, exec_pushlOn .dec⟩

/-- Settles O43: the spellings with `PUSHL` are the pushes of all elements but the last and one `PUSHL`, and `PUSHL` is
`PUSH` and then `END`. -/
theorem pseudoCommandExpansions : Obligations.PseudoCommandExpansions :=
  ⟨rfl, encMsg_concat, rfl, decMsg_concat, execAll_encMsgEnd, execAll_decMsgEnd⟩

/-! ### Messages one after another (10 R24) -/

theorem execAll_next (is : List Instr) (s : State) : ∃ t, execAll is s = .next t := by
  induction is generalizing s with
  | nil => exact ⟨s, rfl⟩
  | cons i is ih =>
    obtain ⟨t, ht⟩ := exec_next i s
    rw [execAll, ht]
    exact ih t

theorem execAll_enc {is : List Instr} (h : ∀ i ∈ is, i.port = .enc) :
    ∃ f : EncUnit → EncUnit × List EncBeat, ∀ s, execAll is s = .next (s.commandEnc (f s.toEncUnit)) := by
  induction is with
  | nil => exact ⟨fun u => (u, []), fun s => by simp [execAll, State.commandEnc]⟩
  | cons i is ih =>
    obtain ⟨hi, his⟩ := List.forall_mem_cons.mp h
    obtain ⟨f, hf⟩ := exec_enc hi
    obtain ⟨g, hg⟩ := ih his
    refine ⟨fun u => ((g (f u).1).1, (f u).2 ++ (g (f u).1).2), fun s => ?_⟩
    rw [execAll, hf]
    simp only [hg, State.commandEnc_commandEnc, State.commandEnc_toEncUnit]

theorem execAll_dec {is : List Instr} (h : ∀ i ∈ is, i.port = .dec) :
    ∃ f : DecUnit → DecUnit × List DecBeat, ∀ s, execAll is s = .next (s.commandDec (f s.toDecUnit)) := by
  induction is with
  | nil => exact ⟨fun u => (u, []), fun s => by simp [execAll, State.commandDec]⟩
  | cons i is ih =>
    obtain ⟨hi, his⟩ := List.forall_mem_cons.mp h
    obtain ⟨f, hf⟩ := exec_dec hi
    obtain ⟨g, hg⟩ := ih his
    refine ⟨fun u => ((g (f u).1).1, (f u).2 ++ (g (f u).1).2), fun s => ?_⟩
    rw [execAll, hf]
    simp only [hg, State.commandDec_commandDec, State.commandDec_toDecUnit]

@[simp] theorem port_pushOn (p : Port) (d : BitVec 8) : (pushOn p d).port = p := by cases p <;> rfl

@[simp] theorem port_pushlOn (p : Port) (d : BitVec 8) : (pushlOn p d).port = p := by cases p <;> rfl

@[simp] theorem port_endOn (p : Port) : (endOn p).port = p := by cases p <;> rfl

/-- A message is commands of its port, of which the last ends it. -/
theorem isMessage_eq_append {is : List Instr} (h : isMessage p is = true) :
    ∃ js i, is = js ++ [i] ∧ i.endsMessage = true ∧ i.port = p ∧ ∀ j ∈ is, j.port = p := by
  obtain ⟨l, rfl | ⟨d, rfl⟩⟩ := isMessage_cases h
  · exact ⟨_, endOn p, rfl, by cases p <;> rfl, port_endOn p, by simp +contextual [or_imp]⟩
  · exact ⟨_, pushlOn p d, rfl, by cases p <;> rfl, port_pushlOn p d, by simp +contextual [or_imp]⟩

/-- Nothing is open after a message, whatever was open before. -/
theorem allClosed_of_isMessage {is : List Instr} (h : isMessage p is = true) (hrun : execAll is s = .next t) :
    AllClosed p t := by
  obtain ⟨js, i, rfl, hend, rfl, -⟩ := isMessage_eq_append h
  obtain ⟨u, hu⟩ := execAll_next js s
  rw [execAll_append_of_next hu, execAll_singleton] at hrun
  exact allClosed_of_endsMessage hend hrun

/-- Settles O41: a message is a function of its unit's registers, which at a boundary are those after reset, and its
last command clears them. -/
theorem messagesAreIndependent : Obligations.MessagesAreIndependent := by
  refine ⟨fun i s hend => ?_, fun is s u his hs hu => ?_, fun is s u his hs hu => ?_⟩
  · obtain ⟨t, ht⟩ := exec_next i s
    have hclosed {p : Port} (hp : i.port = p) : AllClosed p t := hp ▸ allClosed_of_endsMessage hend ht
    exact ⟨t, ht, fun hp => (hclosed hp).1, fun hp => (hclosed hp).1⟩
  · obtain ⟨_, _, _, _, _, hport⟩ := isMessage_eq_append his
    obtain ⟨f, hf⟩ := execAll_enc hport
    have hreg : u.toEncUnit = s.toEncUnit := (encAtBoundary_iff.mp hu).trans (encAtBoundary_iff.mp hs).symm
    exact ⟨_, _, (f s.toEncUnit).2.map .beat, hf s, hf u, rfl, by rw [State.commandEnc_encRes, hreg],
      (allClosed_of_isMessage his (hf s)).1, (allClosed_of_isMessage his (hf u)).1⟩
  · obtain ⟨_, _, _, _, _, hport⟩ := isMessage_eq_append his
    obtain ⟨f, hf⟩ := execAll_dec hport
    have hreg : u.toDecUnit = s.toDecUnit := (decAtBoundary_iff.mp hu).trans (decAtBoundary_iff.mp hs).symm
    exact ⟨_, _, (f s.toDecUnit).2.map .beat, hf s, hf u, rfl, by rw [State.commandDec_decRes, hreg],
      (allClosed_of_isMessage his (hf s)).1, (allClosed_of_isMessage his (hf u)).1⟩

end Sys2Proof.Machine

/-! SUPPORT. What each command leaves in the flag and the counters, and how many beats it emits: 10 R14 to R17, 40 R80,
41 R103; counters of a finite width, 92 D13. -/

namespace Sys2Proof.Machine

variable {s t : State} {i : Instr} {c : CharCode} {cs : List CharCode}

/-! ### The flag and the position counters (10 R14, R15, R17) -/

theorem DecUnit.push_decErr (u : DecUnit) (c : CharCode) : (u.push c).1.decErr = (u.decErr || isInvalid c) := by
  obtain ⟨he, hr⟩ | ⟨he, hc, hr⟩ | ⟨he, v, hc, hr⟩ := u.push_cases c
  · simp [hr, he]
  · simp [hr, DecUnit.raiseInvalidCharacter_eq, isInvalid, hc]
  · rw [hr, (u.accept_decErr_decIdx v).1]
    simp [he, isInvalid, hc]

@[simp] theorem DecUnit.endMessage_fst (u : DecUnit) : u.endMessage.1 = DecUnit.reset := by
  obtain ⟨_, _, _, _, hr⟩ := u.endMessage_eq_reset_done
  rw [hr]

@[simp] theorem DecUnit.pushl_fst (u : DecUnit) (c : CharCode) : (u.pushl c).1 = DecUnit.reset := by
  rw [DecUnit.pushl_eq_push_endMessage, DecUnit.endMessage_fst]

/-- Settles O33, command by command. -/
theorem errorFlagRule : Obligations.ErrorFlagRule := by
  intro i s
  cases i with
  | encPush | encPushl | encEnd => exact ⟨_, rfl, rfl⟩
  | decPush c => exact ⟨_, rfl, s.toDecUnit.push_decErr c⟩
  | decPushl c => exact ⟨_, rfl, by simp⟩
  | decEnd => exact ⟨_, rfl, by simp⟩

theorem EncUnit.push_encPos_val (u : EncUnit) (d : Byte) :
    (u.push d).1.encPos.val = if u.encPos.val = 4 then 0 else u.encPos.val + 1 := by
  obtain ⟨hpos, hr⟩ | ⟨hpos, hr⟩ := u.push_cases d
  · rw [hr, hpos]
    rfl
  · have hval : u.encPos.val ≠ 4 := fun h => hpos (Fin.ext h)
    rw [hr, if_neg hval]
    exact Fin.val_add_one_of_lt (Fin.lt_last_iff_ne_last.mpr hpos)

theorem DecUnit.accept_decPos_val (u : DecUnit) (v : Index) :
    (u.accept v).1.decPos.val = if u.decPos.val = 7 then 0 else u.decPos.val + 1 := by
  obtain ⟨hpos, hr⟩ | ⟨hpos, hr⟩ := u.accept_cases v
  · rw [hr, hpos]
    rfl
  · have hval : u.decPos.val ≠ 7 := fun h => hpos (Fin.ext h)
    rw [hr, if_neg hval]
    exact Fin.val_add_one_of_lt (Fin.lt_last_iff_ne_last.mpr hpos)

theorem DecUnit.push_decPos_val (u : DecUnit) (c : CharCode) : (u.push c).1.decPos.val =
    if u.decErr = true then u.decPos.val
    else if isInvalid c = true then 0
    else if u.decPos.val = 7 then 0 else u.decPos.val + 1 := by
  obtain ⟨he, hr⟩ | ⟨he, hc, hr⟩ | ⟨he, v, hc, hr⟩ := u.push_cases c
  · rw [hr, if_pos he]
  · simp [hr, he, DecUnit.raiseInvalidCharacter_eq, isInvalid, hc]
  · rw [hr, DecUnit.accept_decPos_val]
    simp [he, isInvalid, hc]

/-! ### The counters over a message (10 R14 to R17) -/

/-- From a boundary `ENC.POS` counts the bytes pushed modulo 5. -/
theorem execAll_map_encPush_encPos (hs : encAtBoundary s) (b : List Byte) :
    ∃ t, execAll (b.map .encPush) s = .next t ∧ t.encPos.val = b.length % 5 := by
  obtain ⟨u, gs, hrun, hbits, -⟩ := execAll_map_encPush hs b
  have hpos : u.encPos.val = b.length % 5 := by omega
  exact ⟨_, hrun, hpos⟩

/-- From a boundary `DEC.POS` counts the valid characters pushed modulo 8, and `DEC.IDX` counts them. -/
theorem execAll_map_decPush_of_valid (hs : decAtBoundary s) (h : firstInvalid cs = none) :
    ∃ t, execAll (cs.map .decPush) s = .next t ∧ t.decErr = false ∧ t.decIdx = cs.length ∧
      t.decPos.val = cs.length % 8 := by
  obtain ⟨u, vs, hrun, ⟨_, _, h', -⟩ | ⟨-, he, hidx, hbits, -⟩⟩ := execAll_map_decPush hs cs
  · simp [h] at h'
  · rw [List.length_map] at hbits
    have hpos : u.decPos.val = cs.length % 8 := by omega
    exact ⟨_, hrun, he, hidx, hpos⟩

theorem length_takeWhile_of_firstInvalid_eq_none (h : firstInvalid cs = none) :
    (cs.takeWhile fun c => !isInvalid c).length = cs.length := by
  rw [List.takeWhile_eq_self_iff.mpr fun c hc => by simp [firstInvalid_eq_none_iff.mp h c hc]]

theorem length_takeWhile_of_firstInvalid_eq_some {p : Nat} (h : firstInvalid cs = some (c, p)) :
    (cs.takeWhile fun c => !isInvalid c).length = p := by
  obtain ⟨hcp, hc, hbefore⟩ := firstInvalid_eq_some_iff.mp h
  obtain ⟨hp, rfl⟩ := List.getElem?_eq_some_iff.mp hcp
  have hsplit : cs = cs.take p ++ cs[p] :: cs.drop (p + 1) := by simp
  rw [hsplit, List.takeWhile_append_of_pos fun d hd => by simp [hbefore d hd],
    List.takeWhile_cons_of_neg (by simp [hc]), List.append_nil, List.length_take_of_le hp.le]

/-- Settles O34: the first clause command by command, the others by counting the bits that were streamed. -/
theorem countersCountTheElements : Obligations.CountersCountTheElements := by
  refine ⟨fun i s => ?_, fun s b hs => execAll_map_encPush_encPos hs b, fun s cs hs h => ?_, fun s cs hs => ?_⟩
  · obtain ⟨t, ht⟩ := exec_next i s
    refine ⟨t, ht, Nat.le_of_lt_succ t.encPos.isLt, Nat.le_of_lt_succ t.decPos.isLt, ?_⟩
    cases i with
    | encPush d => cases ht; exact ⟨s.toEncUnit.push_encPos_val d, rfl⟩
    | encPushl | encEnd => cases ht; exact ⟨rfl, rfl⟩
    | decPush c => cases ht; exact ⟨rfl, s.toDecUnit.push_decPos_val c⟩
    | decPushl | decEnd => cases ht; simp
  · obtain ⟨t, hrun, -, -, hpos⟩ := execAll_map_decPush_of_valid hs (firstInvalid_eq_none_iff.mpr h)
    exact ⟨t, hrun, hpos⟩
  · cases h : firstInvalid cs with
    | none =>
      obtain ⟨t, hrun, he, hidx, hpos⟩ := execAll_map_decPush_of_valid hs h
      exact ⟨t, hrun, by rw [hidx, length_takeWhile_of_firstInvalid_eq_none h], he, by rw [hidx, hpos]⟩
    | some x =>
      obtain ⟨u, vs, -, hidx, -, -, hrun⟩ := execAll_map_decPush_of_invalid hs h
      exact ⟨_, hrun, by rw [length_takeWhile_of_firstInvalid_eq_some h]; exact hidx, rfl, rfl, hidx, hidx⟩

/-! ### Counters of a finite width (92 D13, 93 U2) -/

/-- From a boundary no position register exceeds the number of characters pushed. -/
theorem execAll_map_decPush_le (hs : decAtBoundary s) (cs : List CharCode) :
    ∃ t, execAll (cs.map .decPush) s = .next t ∧ t.decIdx ≤ cs.length ∧ t.decErrPos ≤ cs.length := by
  obtain ⟨t, hrun, hidx, -⟩ := countersCountTheElements.2.2.2 s cs hs
  have hle : t.decIdx ≤ cs.length := hidx ▸ (List.takeWhile_prefix _).length_le
  have hinv : s.toDecUnit.Inv := by rw [decAtBoundary_iff.mp hs]; exact DecUnit.inv_reset
  obtain ⟨-, hcount, hfault⟩ := keptBy_decUnit_inv.execAll hinv hrun
  refine ⟨t, hrun, hle, ?_⟩
  cases he : t.decErr with
  | false => rw [(hcount he).2.2]; exact Nat.zero_le _
  | true => rw [(hfault he).2.2.2]; exact hle

/-- The positions in the beats of a message are positions of its characters. -/
theorem execAll_decMsg_posField_le (hs : decAtBoundary s) (cs : List CharCode) :
    ∃ t bs, execAll (decMsg cs) s = .next t ∧ decEmits s t bs ∧ ∀ b ∈ bs, b.posField ≤ cs.length := by
  have hbytes (vs : List Byte) (st : Status) (c : CharCode) {p : Nat} (hp : p ≤ cs.length) :
      ∀ b ∈ vs.map DecBeat.byte ++ [.done st c p], b.posField ≤ cs.length := by
    intro b hb
    obtain hb | hb := List.mem_append.mp hb
    · obtain ⟨v, -, rfl⟩ := List.mem_map.mp hb
      exact Nat.zero_le _
    · rw [List.mem_singleton.mp hb]
      exact hp
  rw [← execAll_decMsgEnd]
  cases h : firstInvalid cs with
  | none =>
    obtain ⟨vs, -, hrun⟩ := execAll_decMsgEnd_of_valid hs h
    exact ⟨_, _, hrun, rfl, hbytes vs _ _ (Nat.zero_le _)⟩
  | some x =>
    obtain ⟨vs, hrun⟩ := execAll_decMsgEnd_of_invalid hs h
    obtain ⟨hp, -⟩ := List.getElem?_eq_some_iff.mp (firstInvalid_eq_some_iff.mp h).1
    exact ⟨_, _, hrun, rfl, hbytes vs _ _ hp.le⟩

/-- Settles O37: every position is at most the number of characters. -/
theorem finiteCounterWidthSuffices : Obligations.FiniteCounterWidthSuffices := by
  intro n cs s hfits hs
  have hlen : cs.length < 2 ^ n := of_decide_eq_true hfits
  obtain ⟨t, hrun, hidx, hpos⟩ := execAll_map_decPush_le hs cs
  obtain ⟨v, bs, hrun', hemits, hle⟩ := execAll_decMsg_posField_le hs cs
  exact ⟨⟨t, hrun, hidx.trans_lt hlen, hpos.trans_lt hlen⟩, v, bs, hrun', hemits, fun b hb =>
    have hlt := (hle b hb).trans_lt hlen
    ⟨hlt, DecBeat.ofWord_word hlt⟩⟩

/-! ### How many beats a command emits (40 R80, 41 R103) -/

theorem EncUnit.push_beats (u : EncUnit) (d : Byte) : ∃ cs : List CharCode,
    (u.push d).2 = cs.map .char ∧ cs.length = [0, 0, 0, 0, 8].getD u.encPos.val 0 := by
  have hkept : ∀ n : Fin 5, n ≠ 4 → [0, 0, 0, 0, 8].getD n.val 0 = 0 := by decide
  obtain ⟨hpos, hr⟩ | ⟨hpos, hr⟩ := u.push_cases d
  · refine ⟨_, by rw [hr, encEmit_eq_lanes], ?_⟩
    rw [hpos, List.length_map, length_lanes]
    rfl
  · exact ⟨[], by rw [hr]; rfl, (hkept _ hpos).symm⟩

/-- The end of an encoder message emits the characters of its last block and `DONE(OK)`. -/
theorem EncUnit.finish_beats (u : EncUnit) (acc : Acc) (n : Fin 6) : ∃ cs : List CharCode,
    (u.finish acc n).2 = cs.map .char ++ [.done .ok] ∧ cs.length = encGroups n :=
  ⟨(lanes 5 acc (encGroups n)).map alpha, by rw [EncUnit.finish_eq, encEmit_eq_lanes], by simp⟩

theorem encGroups_succ_eq_getD : ∀ n : Fin 5, encGroups n.succ = [2, 4, 5, 7, 8].getD n.val 0 := by decide

theorem encGroups_castSucc_eq_getD : ∀ n : Fin 5, encGroups n.castSucc = [0, 2, 4, 5, 7].getD n.val 0 := by decide

/-- How many characters an encoder command emits for `ENC.POS` from 0 to 4 (40 R80). -/
def encCharCounts : Instr → List Nat
  | .encPush _ => [0, 0, 0, 0, 8]
  | .encPushl _ => [2, 4, 5, 7, 8]
  | _ => [0, 2, 4, 5, 7]

/-- How many bytes a decoder command emits for `DEC.POS` from 0 to 7, without an error (41 R103). -/
def decByteCounts : Instr → List Nat
  | .decPush _ => [0, 0, 0, 0, 0, 0, 0, 5]
  | .decPushl _ => [0, 1, 1, 2, 3, 3, 4, 5]
  | _ => [0, 0, 1, 1, 2, 3, 3, 4]

/-- An entry of a table, or the 0 beyond it, is at most what bounds the entries. -/
theorem getD_zero_le {l : List Nat} {m : Nat} (h : ∀ x ∈ l, x ≤ m) (n : Nat) : l.getD n 0 ≤ m := by
  rw [List.getD_eq_getElem?_getD]
  cases hn : l[n]? with
  | none => exact Nat.zero_le m
  | some x => exact h x (List.mem_of_getElem? hn)

theorem encCharCounts_getD_le (i : Instr) (n : Nat) : (encCharCounts i).getD n 0 ≤ 8 :=
  getD_zero_le (by cases i <;> simp [encCharCounts]) n

theorem decByteCounts_getD_le (i : Instr) (n : Nat) : (decByteCounts i).getD n 0 ≤ 5 :=
  getD_zero_le (by cases i <;> simp [decByteCounts]) n

/-- Of an encoder command: the characters, whose number the table gives, and `DONE(OK)` when it ends the message. -/
theorem exec_enc_char_count (hp : i.port = .enc) (s : State) : ∃ (r : EncUnit × List EncBeat) (cs : List CharCode),
    exec i s = .next (s.commandEnc r) ∧ r.2 = cs.map .char ++ (if i.endsMessage then [.done .ok] else []) ∧
    cs.length = (encCharCounts i).getD s.encPos.val 0 := by
  cases i with
  | decPush | decPushl | decEnd => cases hp
  | encPush d =>
    obtain ⟨cs, hbeats, hlen⟩ := s.toEncUnit.push_beats d
    exact ⟨_, cs, rfl, by rw [hbeats]; exact (List.append_nil _).symm, hlen⟩
  | encPushl d =>
    obtain ⟨cs, hbeats, hlen⟩ := s.toEncUnit.finish_beats (encPlace s.encAcc s.encPos d) s.encPos.succ
    exact ⟨_, cs, rfl, hbeats, hlen.trans (encGroups_succ_eq_getD _)⟩
  | encEnd =>
    obtain ⟨cs, hbeats, hlen⟩ := s.toEncUnit.finish_beats s.encAcc s.encPos.castSucc
    exact ⟨_, cs, rfl, hbeats, hlen.trans (encGroups_castSucc_eq_getD _)⟩

theorem DecUnit.accept_beats (u : DecUnit) (v : Index) : ∃ vs : List Byte,
    (u.accept v).2 = vs.map .byte ∧ vs.length = [0, 0, 0, 0, 0, 0, 0, 5].getD u.decPos.val 0 := by
  have hkept : ∀ n : Fin 8, n ≠ 7 → [0, 0, 0, 0, 0, 0, 0, 5].getD n.val 0 = 0 := by decide
  obtain ⟨hpos, hr⟩ | ⟨hpos, hr⟩ := u.accept_cases v
  · refine ⟨_, by rw [hr, decEmit_eq_lanes], ?_⟩
    rw [hpos, length_lanes]
    rfl
  · exact ⟨[], by rw [hr]; rfl, (hkept _ hpos).symm⟩

/-- The end of a decoder message without an error emits the bytes of its last block and `DONE(OK)`. -/
theorem DecUnit.finish_beats (u : DecUnit) (acc : Acc) (n : Fin 9) : ∃ vs : List Byte,
    (u.finish acc n).2 = vs.map .byte ++ [.done .ok 0 0] ∧ vs.length = decBytes n :=
  ⟨lanes 8 acc (decBytes n), by rw [DecUnit.finish_eq, decEmit_eq_lanes], by simp⟩

theorem decBytes_succ_eq_getD : ∀ n : Fin 8, decBytes n.succ = [0, 1, 1, 2, 3, 3, 4, 5].getD n.val 0 := by decide

theorem decBytes_castSucc_eq_getD : ∀ n : Fin 8, decBytes n.castSucc = [0, 0, 1, 1, 2, 3, 3, 4].getD n.val 0 := by
  decide

/-- Of a decoder command outside FAULTED with no invalid character: the bytes, whose number the table gives, and
`DONE(OK)` when it ends the message. -/
theorem exec_dec_byte_count (hp : i.port = .dec) (he : s.decErr = false)
    (hc : ∀ c ∈ i.datum, (rev c).isSome = true) : ∃ (r : DecUnit × List DecBeat) (vs : List Byte),
    exec i s = .next (s.commandDec r) ∧ r.2 = vs.map .byte ++ (if i.endsMessage then [.done .ok 0 0] else []) ∧
    vs.length = (decByteCounts i).getD s.decPos.val 0 := by
  cases i with
  | encPush | encPushl | encEnd => cases hp
  | decPush c =>
    obtain ⟨v, hv⟩ := Option.isSome_iff_exists.mp (hc c rfl)
    obtain ⟨vs, hbeats, hlen⟩ := s.toDecUnit.accept_beats v
    refine ⟨_, vs, rfl, ?_, hlen⟩
    rw [DecUnit.push_of_valid he hv, hbeats]
    exact (List.append_nil _).symm
  | decPushl c =>
    obtain ⟨v, hv⟩ := Option.isSome_iff_exists.mp (hc c rfl)
    obtain ⟨vs, hbeats, hlen⟩ := s.toDecUnit.finish_beats (decPlace s.decAcc s.decPos v) s.decPos.succ
    exact ⟨_, vs, exec_decPushl_of_valid he hv, hbeats, hlen.trans (decBytes_succ_eq_getD _)⟩
  | decEnd =>
    obtain ⟨vs, hbeats, hlen⟩ := s.toDecUnit.finish_beats s.decAcc s.decPos.castSucc
    exact ⟨_, vs, exec_decEnd_of_not_faulted he, hbeats, hlen.trans (decBytes_castSucc_eq_getD _)⟩

/-- Of any other decoder command: the error when it ends the message, else nothing. -/
theorem exec_dec_error_beats (hp : i.port = .dec)
    (h : ¬ (s.decErr = false ∧ ∀ c ∈ i.datum, (rev c).isSome = true)) :
    ∃ r : DecUnit × List DecBeat, exec i s = .next (s.commandDec r) ∧
      if i.endsMessage = true then ∃ c p, r.2 = [.done .invalidCharacter c p] else r.2 = [] := by
  cases he : s.decErr with
  | true =>
    cases hend : i.endsMessage with
    | true => exact ⟨_, exec_of_endsMessage_of_faulted hp hend he, _, _, rfl⟩
    | false =>
      obtain ⟨c, hi⟩ := eq_pushOn_of_not_endsMessage hend
      rw [hi, hp]
      exact ⟨_, rfl, by rw [DecUnit.push_of_faulted he]; rfl⟩
  | false =>
    have hinvalid : ∃ c ∈ i.datum, rev c = none := by simpa [he] using h
    obtain ⟨c, hdatum, hc⟩ := hinvalid
    cases i with
    | encPush | encPushl | encEnd => cases hp
    | decPush => cases hdatum; exact ⟨_, exec_decPush_of_invalid he hc, rfl⟩
    | decPushl => cases hdatum; exact ⟨_, exec_decPushl_of_invalid he hc, _, _, rfl⟩
    | decEnd => cases hdatum

/-- Settles O28: the numbers of a command's beats are entries of the two tables, which the bounds follow from. -/
theorem beatsPerCommand : Obligations.BeatsPerCommand := by
  refine ⟨fun i s hp => ?_, fun i s hp => ?_⟩
  · obtain ⟨r, cs, hr, hbeats, hlen⟩ := exec_enc_char_count hp s
    have hle : cs.length ≤ 8 := hlen.trans_le (encCharCounts_getD_le i _)
    have hcount : r.2.length ≤ cs.length + 1 := by
      rw [hbeats]
      split <;> simp
    refine ⟨_, cs, hr, by rw [← hbeats]; rfl, hlen.trans (by cases i <;> rfl), ?_⟩
    rw [State.commandEnc_encRes, List.length_append, List.length_map]
    omega
  · by_cases h : s.decErr = false ∧ ∀ c ∈ i.datum, (rev c).isSome = true
    · obtain ⟨r, vs, hr, hbeats, hlen⟩ := exec_dec_byte_count hp h.1 h.2
      have hle : vs.length ≤ 5 := hlen.trans_le (decByteCounts_getD_le i _)
      have hcount : r.2.length ≤ vs.length + 1 := by
        rw [hbeats]
        split <;> simp
      refine ⟨_, r.2, hr, rfl, by omega, ?_⟩
      rw [if_pos h]
      exact ⟨vs, hbeats, hlen.trans (by cases i <;> rfl)⟩
    · obtain ⟨r, hr, hbeats⟩ := exec_dec_error_beats hp h
      refine ⟨_, r.2, hr, rfl, ?_, ?_⟩
      · split at hbeats
        · obtain ⟨c, p, hdone⟩ := hbeats
          simp [hdone]
        · simp [hbeats]
      · rw [if_neg h]
        exact hbeats

end Sys2Proof.Machine

/-! SUPPORT. Lanes and tables: 20 R34, 40 R70, R81, 41 R90, R109. -/

namespace Sys2Proof.Machine

/-! ### No accumulator overflows (40 R81, 41 R109) -/

/-- Elements in lanes that do not overlap share no bit. -/
theorem and_setWidth_shiftLeft_eq_zero {n w p q : Nat} (hq : q + w ≤ n) (hpq : p + w ≤ q) (x y : BitVec w) :
    (x.setWidth n <<< p) &&& (y.setWidth n <<< q) = 0 := by
  apply BitVec.eq_of_getLsbD_eq
  intro k _
  rw [BitVec.getLsbD_and, getLsbD_setWidth_shiftLeft (by omega), getLsbD_setWidth_shiftLeft hq]
  by_cases hk : q ≤ k
  · have hx : x.getLsbD (k - p) = false := BitVec.getLsbD_of_ge x _ (by omega)
    simp [hx]
  · simp [hk]

theorem encOperand_toNat (i : Fin 5) (d : Byte) : (encOperand i d).toNat = d.toNat * 2 ^ (32 - 8 * i.val) :=
  toNat_setWidth_shiftLeft (byteLane_fits i) d

theorem decOperand_toNat (i : Fin 8) (v : Index) : (decOperand i v).toNat = v.toNat * 2 ^ (35 - 5 * i.val) :=
  toNat_setWidth_shiftLeft (groupLane_fits i) v

/-- No operand exceeds the largest element in the first lane. -/
theorem encOperand_toNat_le (i : Fin 5) (d : Byte) : (encOperand i d).toNat ≤ 0xFF00000000 := by
  rw [encOperand_toNat]
  exact Nat.mul_le_mul (Nat.le_of_lt_succ d.isLt) (Nat.pow_le_pow_right Nat.two_pos (Nat.sub_le ..))

theorem decOperand_toNat_le (i : Fin 8) (v : Index) : (decOperand i v).toNat ≤ 0xF800000000 := by
  rw [decOperand_toNat]
  exact Nat.mul_le_mul (Nat.le_of_lt_succ v.isLt) (Nat.pow_le_pow_right Nat.two_pos (Nat.sub_le ..))

theorem encOperand_and_eq_zero {i j : Fin 5} (h : i ≠ j) (d e : Byte) : encOperand i d &&& encOperand j e = 0 := by
  obtain h | h := lt_or_gt_of_ne h
  · rw [BitVec.and_comm]
    exact and_setWidth_shiftLeft_eq_zero (byteLane_fits i) (by omega) e d
  · exact and_setWidth_shiftLeft_eq_zero (byteLane_fits j) (by omega) d e

theorem decOperand_and_eq_zero {i j : Fin 8} (h : i ≠ j) (v w : Index) : decOperand i v &&& decOperand j w = 0 := by
  obtain h | h := lt_or_gt_of_ne h
  · rw [BitVec.and_comm]
    exact and_setWidth_shiftLeft_eq_zero (groupLane_fits i) (by omega) w v
  · exact and_setWidth_shiftLeft_eq_zero (groupLane_fits j) (by omega) v w

/-- Settles O18: an operand is its element in a lane of the accumulator, and the lanes do not overlap. -/
theorem accumulatorsNeverOverflow : Obligations.AccumulatorsNeverOverflow :=
  ⟨fun i d => ⟨encOperand_toNat i d, encOperand_toNat_le i d⟩, rfl, fun _ _ d e h => encOperand_and_eq_zero h d e,
    by decide,
    fun i v => ⟨decOperand_toNat i v, decOperand_toNat_le i v⟩, rfl, fun _ _ v w h => decOperand_and_eq_zero h v w,
    by decide⟩

/-! ### The tables (20 R34, 40 R70, 41 R90) -/

/-- Settles O21: the two cases of a letter differ, and have one index. -/
theorem reverseInvertsAlphabet : Obligations.ReverseInvertsAlphabet :=
  ⟨rev_alpha, by decide, 0x41, 0x61, by decide, rfl, rfl⟩

/-- Settles O22: the entries of the two tables are the quotients, and the rest is what is filled up or left over. -/
theorem countTables : Obligations.CountTables := by
  refine ⟨rfl, fun n => ⟨encGroups_eq n, ?_⟩, rfl, rfl, decBytes_eq, rfl⟩
  rw [encGroups_eq]
  omega

/-! ### Encodings as text (42 R134) -/

/-- Settles O54: an encoding is characters of the alphabet, and decoding it gives the bytes. -/
theorem encodingsAreValidText : Obligations.EncodingsAreValidText := by
  intro b text h
  refine ⟨fun c hc => ?_, fun st c p herr => ?_⟩
  · obtain ⟨gs, -, rfl⟩ := encodeMessage_eq_some_iff.mp h
    refine ⟨isInvalid_of_mem_map_alpha hc, ?_⟩
    obtain ⟨g, -, rfl⟩ := List.mem_map.mp hc
    exact alpha_toNat_lt g
  · rw [decodeMessage_of_encodeMessage h] at herr
    cases herr

end Sys2Proof.Machine

/-! SUPPORT. The closed forms of `encode` and `decode` (42 R123, R124) and the prefixes of messages (42 R135). -/

namespace Sys2Proof.Machine

/-! ### Parts of a packed sequence -/

section Packed

variable {w : Nat}

theorem packed_lt (l : List (BitVec w)) : packed l < 2 ^ (w * l.length) := by
  induction l using List.reverseRecOn with
  | nil => exact Nat.one_pos
  | append_singleton l x ih =>
    have hx : x.toNat < 2 ^ w := x.isLt
    rw [packed_concat, List.length_append, List.length_singleton, Nat.mul_succ, Nat.pow_add]
    calc packed l * 2 ^ w + x.toNat < packed l * 2 ^ w + 2 ^ w := Nat.add_lt_add_left hx _
      _ = (packed l + 1) * 2 ^ w := (Nat.succ_mul ..).symm
      _ ≤ 2 ^ (w * l.length) * 2 ^ w := Nat.mul_le_mul_right _ ih

/-- The elements before the last ones spell the quotient. -/
theorem packed_append_div (l m : List (BitVec w)) : packed (l ++ m) / 2 ^ (w * m.length) = packed l := by
  rw [packed_append, Nat.add_comm, Nat.add_mul_div_right _ _ (Nat.two_pow_pos _), Nat.div_eq_of_lt (packed_lt m),
    Nat.zero_add]

theorem packed_take (l : List (BitVec w)) (k : Nat) : packed (l.take k) = packed l / 2 ^ (w * (l.length - k)) := by
  conv_rhs => rw [← List.take_append_drop k l]
  rw [← packed_append_div (l.take k) (l.drop k), List.length_drop]
  simp

theorem packed_cons (x : BitVec w) (l : List (BitVec w)) :
    packed (x :: l) = x.toNat * 2 ^ (w * l.length) + packed l := by
  have hx : packed [x] = x.toNat := by simpa using packed_concat [] x
  rw [← List.singleton_append, packed_append, hx]

end Packed

/-! ### Prefixes of messages (42 R135) -/

/-- The first groups of an encoding that lie inside the bytes are those of any longer sequence of bytes. -/
theorem Encodes.packed_take {b : List Byte} {gs : List Index} (h : Encodes b gs) {k : Nat}
    (hk : 5 * k ≤ 8 * b.length) : packed (gs.take k) = packed b / 2 ^ (8 * b.length - 5 * k) := by
  obtain ⟨hlen, hnum⟩ := h
  have hsplit : 5 * (gs.length - k) = 8 * b.length - 5 * k + (5 * gs.length - 8 * b.length) := by omega
  rw [Machine.packed_take, hnum, hsplit, Nat.pow_add, Nat.mul_div_mul_right _ _ (Nat.two_pow_pos _)]

theorem Encodes.take_eq {b c : List Byte} {gs gs' : List Index} (h : Encodes b gs) (h' : Encodes (b ++ c) gs') {k : Nat}
    (hk : 5 * k ≤ 8 * b.length) : gs.take k = gs'.take k := by
  have hbits : 8 * (b ++ c).length = 8 * b.length + 8 * c.length := by rw [List.length_append, Nat.mul_add]
  have hsplit : 8 * (b ++ c).length - 5 * k = 8 * c.length + (8 * b.length - 5 * k) := by omega
  have hlen := h.1
  have hlen' := h'.1
  refine eq_of_packed_eq ?_ ?_
  · rw [List.length_take_of_le (by omega), List.length_take_of_le (by omega)]
  · rw [h.packed_take hk, h'.packed_take (by omega), hsplit, Nat.pow_add, ← Nat.div_div_eq_div_mul,
      packed_append_div]

/-- The bytes of whole characters are the first bytes of any longer text. -/
theorem Decodes.isPrefix {gs gs' : List Index} {vs vs' : List Byte} (h : Decodes gs vs)
    (h' : Decodes (gs ++ gs') vs') : vs <+: vs' := by
  obtain ⟨hlen, hnum⟩ := h
  obtain ⟨hlen', hnum'⟩ := h'
  have hbits : 5 * (gs ++ gs').length = 5 * gs.length + 5 * gs'.length := by rw [List.length_append, Nat.mul_add]
  have hsplit : 5 * (gs ++ gs').length - 8 * vs'.length + 8 * (vs'.length - vs.length) =
      5 * gs'.length + (5 * gs.length - 8 * vs.length) := by omega
  have htake : vs = vs'.take vs.length := by
    refine eq_of_packed_eq (List.length_take_of_le (by omega)).symm ?_
    rw [packed_take, hnum', hnum, Nat.div_div_eq_div_mul, ← Nat.pow_add, hsplit, Nat.pow_add,
      ← Nat.div_div_eq_div_mul, packed_append_div]
  rw [htake]
  exact List.take_prefix ..

/-- Settles O55: the first bits of a message fix the groups that lie inside them, and the whole bytes. -/
theorem prefixesCarryOver : Obligations.PrefixesCarryOver := by
  refine ⟨fun b c x y hx hy => ?_, fun s t x y _ hx hy => ?_⟩
  · obtain ⟨gs, hgs, rfl⟩ := encodeMessage_eq_some_iff.mp hx
    obtain ⟨gs', hgs', rfl⟩ := encodeMessage_eq_some_iff.mp hy
    have hprefix {k : Nat} (hk : 5 * k ≤ 8 * b.length) : gs.take k <+: gs' :=
      hgs.take_eq hgs' hk ▸ List.take_prefix ..
    have hlen := hgs.1
    refine ⟨fun hb => ?_, ?_⟩
    · have hwhole := hprefix (k := gs.length) (by omega)
      rw [List.take_length] at hwhole
      exact hwhole.map alpha
    · have hall := hprefix (k := gs.length - 1) (by omega)
      rw [← List.map_dropLast, List.dropLast_eq_take]
      exact hall.map alpha
  · have hdec := (decodeMessage_eq_ok_iff.mp hx).2
    have hdec' := (decodeMessage_eq_ok_iff.mp hy).2
    rw [List.map_append] at hdec'
    exact hdec.isPrefix hdec'

/-! ### Bit strings (42 R123, R124) -/

section Bits

variable {w : Nat}

/-- A bit string spells the number of its bits as elements one bit wide. -/
theorem bitsValue_eq_packed (bs : List Bool) : bitsValue bs = packed (bs.map BitVec.ofBool) := by
  induction bs using List.reverseRecOn with
  | nil => rfl
  | append_singleton bs b ih =>
    rw [List.map_append, List.map_singleton, packed_concat, ← ih, BitVec.toNat_ofBool, bitsValue, List.foldl_append,
      Nat.pow_one, Nat.mul_comm, bitsValue]
    rfl

theorem bitsValue_append (bs cs : List Bool) : bitsValue (bs ++ cs) = bitsValue bs * 2 ^ cs.length + bitsValue cs := by
  simp only [bitsValue_eq_packed, List.map_append, packed_append, List.length_map, Nat.one_mul]

theorem bitsValue_lt (bs : List Bool) : bitsValue bs < 2 ^ bs.length := by
  simpa [bitsValue_eq_packed] using packed_lt (bs.map BitVec.ofBool)

theorem bitsValue_take (bs : List Bool) (k : Nat) : bitsValue (bs.take k) = bitsValue bs / 2 ^ (bs.length - k) := by
  simpa [bitsValue_eq_packed] using packed_take (bs.map BitVec.ofBool) k

@[simp] theorem length_bitsOf (v : BitVec w) : (bitsOf v).length = w := by simp [bitsOf]

/-- The bits of a value spell it. -/
theorem bitsValue_bitsOf (v : BitVec w) : bitsValue (bitsOf v) = v.toNat := by
  have hfirst (n : Nat) (hn : n ≤ w) :
      bitsValue ((List.range n).map fun i => v.getMsbD i) = v.toNat / 2 ^ (w - n) := by
    induction n with
    | zero => exact (Nat.div_eq_of_lt (by simpa using v.isLt)).symm
    | succ n ih =>
      have hsplit : w - n = w - (n + 1) + 1 := by omega
      have hbit : (v.getMsbD n).toNat = v.toNat / 2 ^ (w - (n + 1)) % 2 := by
        rw [BitVec.getMsbD_eq_getLsbD, decide_eq_true (by omega : n < w), Bool.true_and, BitVec.getLsbD,
          Nat.toNat_testBit, Nat.sub_sub, Nat.add_comm 1]
      rw [List.range_succ, List.map_append, bitsValue_append, ih (by omega), hsplit, Nat.pow_succ,
        ← Nat.div_div_eq_div_mul]
      simp [bitsValue, hbit]
      omega
  simpa [bitsOf] using hfirst w le_rfl

theorem length_flatMap_bitsOf (l : List (BitVec w)) : (l.flatMap bitsOf).length = w * l.length := by
  induction l with
  | nil => rfl
  | cons x l ih => rw [List.flatMap_cons, List.length_append, length_bitsOf, ih, List.length_cons]; ring

theorem bitsValue_flatMap_bitsOf (l : List (BitVec w)) : bitsValue (l.flatMap bitsOf) = packed l := by
  induction l with
  | nil => rfl
  | cons x l ih =>
    rw [List.flatMap_cons, bitsValue_append, bitsValue_bitsOf, ih, length_flatMap_bitsOf, packed_cons]

@[simp] theorem length_cut {α : Type} (k n : Nat) (l : List α) : (cut k n l).length = n := by
  induction n generalizing l with
  | zero => rfl
  | succ n ih => rw [cut, List.length_cons, ih]

/-- The pieces of a bit string, as elements, spell what they cover. -/
theorem packed_map_cut (n : Nat) (bs : List Bool) (h : w * n ≤ bs.length) :
    packed ((cut w n bs).map fun g => BitVec.ofNat w (bitsValue g)) = bitsValue (bs.take (w * n)) := by
  induction n generalizing bs with
  | zero => rfl
  | succ n ih =>
    have htotal : w * (n + 1) = w + w * n := by rw [Nat.mul_succ, Nat.add_comm]
    rw [htotal] at h
    have hfirst : bitsValue (bs.take w) < 2 ^ w :=
      (bitsValue_lt _).trans_le (Nat.pow_le_pow_right Nat.two_pos (List.length_take_le ..))
    have hrest : w * n ≤ (bs.drop w).length := by rw [List.length_drop]; omega
    rw [cut, List.map_cons, packed_cons, ih _ hrest, BitVec.toNat_ofNat, Nat.mod_eq_of_lt hfirst, List.length_map,
      length_cut, htotal, List.take_add, bitsValue_append, List.length_take_of_le hrest]

theorem bitsValue_replicate_false (k : Nat) : bitsValue (List.replicate k false) = 0 := by
  induction k with
  | zero => rfl
  | succ k ih => rw [List.replicate_succ', bitsValue_append, ih]; rfl

/-- The groups of the closed form by bit strings: all bits, filled with zeros to whole groups (42 R123). -/
theorem encodes_bits (b : List Byte) {k : Nat} (hk : k < 5) (hwhole : (8 * b.length + k) % 5 = 0) : Encodes b
    ((cut 5 ((8 * b.length + k) / 5) (b.flatMap bitsOf ++ List.replicate k false)).map
      fun g => BitVec.ofNat 5 (bitsValue g)) := by
  have hbits : (b.flatMap bitsOf ++ List.replicate k false).length = 8 * b.length + k := by
    rw [List.length_append, length_flatMap_bitsOf, List.length_replicate]
  have hall : 5 * ((8 * b.length + k) / 5) = 8 * b.length + k := Nat.mul_div_cancel' (Nat.dvd_of_mod_eq_zero hwhole)
  refine ⟨by rw [List.length_map, length_cut]; omega, ?_⟩
  rw [packed_map_cut _ _ (hall.trans hbits.symm).le, hall, ← hbits, List.take_length, bitsValue_append,
    bitsValue_flatMap_bitsOf, bitsValue_replicate_false, List.length_replicate, List.length_map, length_cut, hbits,
    hall, Nat.add_sub_cancel_left, Nat.add_zero]

/-- The bytes of the closed form by bit strings: the whole bytes among all bits (42 R124). -/
theorem decodes_bits (gs : List Index) : Decodes gs
    ((cut 8 (5 * gs.length / 8) ((gs.flatMap bitsOf).take (8 * (5 * gs.length / 8)))).map
      fun g => BitVec.ofNat 8 (bitsValue g)) := by
  have hbits : (gs.flatMap bitsOf).length = 5 * gs.length := length_flatMap_bitsOf gs
  have hle : 8 * (5 * gs.length / 8) ≤ (gs.flatMap bitsOf).length := by omega
  refine ⟨by rw [List.length_map, length_cut], ?_⟩
  rw [packed_map_cut _ _ (List.length_take_of_le hle).ge, List.take_take, Nat.min_self, bitsValue_take, hbits,
    bitsValue_flatMap_bitsOf, List.length_map, length_cut]

end Bits

theorem encodeByBits_eq (b : List Byte) : ∃ gs, Encodes b gs ∧ encodeByBits b = gs.map alpha := by
  have hfill : (5 - 8 * b.length % 5) % 5 < 5 ∧ (8 * b.length + (5 - 8 * b.length % 5) % 5) % 5 = 0 := by omega
  refine ⟨_, encodes_bits b hfill.1 hfill.2, ?_⟩
  simp only [encodeByBits, Config.groupBits, List.length_append, List.length_replicate, length_flatMap_bitsOf,
    List.map_map]
  rfl

theorem decodeByBits_of_valid {cs : List CharCode} (h : firstInvalid cs = none) :
    ∃ vs, Decodes (cs.map indexOf) vs ∧ decodeByBits cs = .ok vs := by
  refine ⟨_, decodes_bits (cs.map indexOf), ?_⟩
  have hbits : (cs.flatMap fun c => bitsOf (indexOf c)) = (cs.map indexOf).flatMap bitsOf := by
    rw [List.flatMap_map]
  simp only [decodeByBits, h, hbits, Config.byteBits, length_flatMap_bitsOf]

/-! ### Block by block (42 R123, R124) -/

section Blocks

variable {v w B n m : Nat} {ins : List (BitVec v)} {outs : List (BitVec w)} {count : Nat → Nat}

/-- The accumulator with the first `m` elements of the `n`-th block of `B` elements in its lanes. -/
def blockAcc (B : Nat) (ins : List (BitVec v)) (n m : Nat) : Acc :=
  (List.range m).foldl (fun acc i => acc ||| (ins.getD (B * n + i) 0).setWidth 40 <<< (40 - v * (i + 1))) 0

/-- What goes out for the `n`-th block, `count` lanes for so many elements present. -/
def blockLanes (w B : Nat) (count : Nat → Nat) (ins : List (BitVec v)) (n : Nat) : List (BitVec w) :=
  lanes w (blockAcc B ins n (min B (ins.length - B * n))) (count (min B (ins.length - B * n)))

theorem Streamed.blockAcc (h : Streamed (ins.take (B * n)) outs 0 0) (hm : v * m ≤ 40)
    (hle : B * n + m ≤ ins.length) : Streamed (ins.take (B * n + m)) outs (blockAcc B ins n m) m := by
  induction m with
  | zero => exact h
  | succ m ih =>
    have hlt : B * n + m < ins.length := hle
    have hacc : Machine.blockAcc B ins n (m + 1) =
        Machine.blockAcc B ins n m ||| (ins.getD (B * n + m) 0).setWidth 40 <<< (40 - v * (m + 1)) := by
      rw [Machine.blockAcc, List.range_succ, List.foldl_append]
      rfl
    rw [hacc, List.getD_eq_getElem _ _ hlt, ← Nat.add_assoc, List.take_succ_eq_append_getElem hlt]
    exact (ih ((Nat.mul_le_mul_left v m.le_succ).trans hm) hlt.le).place hm _

/-- Full blocks go out whole. -/
theorem streamed_blocks (hv : v * B = 40) (hw : w * count B = 40) (n : Nat) (hn : B * n ≤ ins.length) :
    Streamed (ins.take (B * n)) ((List.range n).flatMap (blockLanes w B count ins)) 0 0 := by
  induction n with
  | zero => exact Streamed.nil
  | succ n ih =>
    rw [Nat.mul_succ] at hn
    have hfull : min B (ins.length - B * n) = B := Nat.min_eq_left (by omega)
    have hblock := (ih (by omega)).blockAcc hv.le hn
    rw [List.range_succ, List.flatMap_append, List.flatMap_singleton, blockLanes, hfull]
    exact hblock.drain hv hw

/-- All blocks: the full ones have gone out, and the last lanes end the message. -/
theorem exists_streamed_blocks (hv : v * B = 40) (hw : w * count B = 40) (hzero : count 0 = 0) (ins : List (BitVec v)) :
    ∃ (outs : List (BitVec w)) (acc : Acc) (m : Nat), m ≤ B ∧ Streamed ins outs acc m ∧
      (List.range (ceilDiv ins.length B)).flatMap (blockLanes w B count ins) = outs ++ lanes w acc (count m) := by
  have hB : 0 < B := Nat.pos_of_ne_zero fun h => by simp [h] at hv
  obtain hins | hins := Nat.eq_zero_or_pos ins.length
  · have hceil : ceilDiv 0 B = 0 := Nat.div_eq_of_lt (by omega)
    rw [List.length_eq_zero_iff.mp hins]
    exact ⟨[], 0, 0, Nat.zero_le B, Streamed.nil, by simp [hceil, hzero, lanes]⟩
  · obtain ⟨k, hk⟩ : ∃ k, k = (ins.length - 1) / B := ⟨_, rfl⟩
    have hdiv : B * k + (ins.length - 1) % B = ins.length - 1 := hk ▸ Nat.div_add_mod ..
    have hmod : (ins.length - 1) % B < B := Nat.mod_lt _ hB
    have hceil : ceilDiv ins.length B = k + 1 := by
      rw [ceilDiv, Nat.sub_add_comm hins, Nat.add_div_right _ hB, hk]
    have hlast : min B (ins.length - B * k) = ins.length - B * k := Nat.min_eq_right (by omega)
    have hm : v * (ins.length - B * k) ≤ 40 := hv ▸ Nat.mul_le_mul_left v (by omega)
    have hle : B * k ≤ ins.length := by omega
    have hblock := (streamed_blocks hv hw k hle).blockAcc hm (Nat.add_sub_cancel' hle).le
    rw [Nat.add_sub_cancel' hle, List.take_length] at hblock
    refine ⟨_, _, ins.length - B * k, by omega, hblock, ?_⟩
    rw [hceil, List.range_succ, List.flatMap_append, List.flatMap_singleton, blockLanes, hlast]

end Blocks

theorem Streamed.encodes {b : List Byte} {gs : List Index} {acc : Acc} {pos : Nat} (h : Streamed b gs acc pos)
    (hpos : pos ≤ 5) : Encodes b (gs ++ lanes 5 acc ((8 * pos + 4) / 5)) := by
  have hlen := h.1
  refine ⟨?_, h.finish_fill (by omega) (by omega)⟩
  rw [List.length_append, length_lanes]
  omega

theorem Streamed.decodes {gs : List Index} {vs : List Byte} {acc : Acc} {pos : Nat} (h : Streamed gs vs acc pos)
    (hpos : pos ≤ 8) : Decodes gs (vs ++ lanes 8 acc (5 * pos / 8)) := by
  have hlen := h.1
  refine ⟨?_, h.finish_cut (by omega) (by omega)⟩
  rw [List.length_append, length_lanes]
  omega

theorem map_encGroup_eq_lanes (acc : Acc) (n : Nat) : (List.range n).map (encGroup acc) = lanes 5 acc n := by
  refine List.map_congr_left fun j _ => ?_
  have hlane : 35 - 5 * j = 40 - 5 * (j + 1) := by omega
  rw [encGroup_eq_extractLsb', hlane]

theorem map_decByte_eq_lanes (acc : Acc) (n : Nat) : (List.range n).map (decByte acc) = lanes 8 acc n := by
  refine List.map_congr_left fun k _ => ?_
  have hlane : 32 - 8 * k = 40 - 8 * (k + 1) := by omega
  rw [decByte_eq_extractLsb', hlane]

theorem encodeByBlocks_eq (b : List Byte) : ∃ gs, Encodes b gs ∧ encodeByBlocks b = gs.map alpha := by
  obtain ⟨gs, acc, m, hm, hstream, hblocks⟩ :=
    exists_streamed_blocks (w := 5) (B := 5) (count := fun m => encGroups (Fin.ofNat 6 m)) rfl rfl rfl b
  have hcount : encGroups (Fin.ofNat 6 m) = (8 * m + 4) / 5 :=
    (encGroups_eq _).trans (by rw [Fin.val_ofNat, Nat.mod_eq_of_lt (by omega)])
  have hlane (i : Nat) : 40 - 8 * (i + 1) = 32 - 8 * i := by omega
  refine ⟨_, hstream.encodes hm, ?_⟩
  rw [← hcount, ← hblocks, List.map_flatMap]
  refine List.flatMap_congr fun n _ => ?_
  simp only [blockLanes, blockAcc, hlane, ← map_encGroup_eq_lanes, List.map_map]
  rfl

theorem decodeByBlocks_of_valid {cs : List CharCode} (h : firstInvalid cs = none) :
    ∃ vs, Decodes (cs.map indexOf) vs ∧ decodeByBlocks cs = .ok vs := by
  obtain ⟨vs, acc, m, hm, hstream, hblocks⟩ :=
    exists_streamed_blocks (w := 8) (B := 8) (count := fun m => decBytes (Fin.ofNat 9 m)) rfl rfl rfl (cs.map indexOf)
  have hcount : decBytes (Fin.ofNat 9 m) = 5 * m / 8 :=
    (decBytes_eq _).trans (by rw [Fin.val_ofNat, Nat.mod_eq_of_lt (by omega)])
  have hlane (i : Nat) : 40 - 5 * (i + 1) = 35 - 5 * i := by omega
  have hindex (k : Nat) : (cs.map indexOf).getD k 0 = indexOf (cs.getD k 0) := by
    have hzero : (0 : Index) = indexOf 0 := rfl
    rw [hzero, List.getD_map]
  refine ⟨_, hstream.decodes hm, ?_⟩
  rw [← hcount, ← hblocks, List.length_map]
  simp only [decodeByBlocks, h]
  refine congrArg DecResult.ok (List.flatMap_congr fun n _ => ?_)
  simp only [blockLanes, blockAcc, hlane, hindex, List.length_map, ← map_decByte_eq_lanes]
  rfl

/-- Settles O45: the groups of an encoding are unique, and the message and both closed forms give them. -/
theorem encodeIsTheBitString : Obligations.EncodeIsTheBitString := by
  intro b
  obtain ⟨gs, hgs, hbits⟩ := encodeByBits_eq b
  obtain ⟨gs', hgs', hblocks⟩ := encodeByBlocks_eq b
  exact ⟨encodeMessage_eq_some_iff.mpr ⟨gs, hgs, hbits⟩, by rw [hblocks, hbits, hgs'.unique hgs]⟩

/-- Settles O46: the first invalid character decides in all three; without one the bytes of a decoding are unique, and
the message and both closed forms give them. -/
theorem decodeIsTheBitString : Obligations.DecodeIsTheBitString := by
  intro s
  cases h : firstInvalid s with
  | none =>
    obtain ⟨vs, hvs, hbits⟩ := decodeByBits_of_valid h
    obtain ⟨vs', hvs', hblocks⟩ := decodeByBlocks_of_valid h
    obtain ⟨ws, hws, hmessage⟩ := decodeMessage_of_valid h
    exact ⟨by rw [hmessage, hbits, hws.unique hvs], by rw [hblocks, hbits, hvs'.unique hvs]⟩
  | some x =>
    have hbits : decodeByBits s = .err .invalidCharacter x.1 x.2 := by rw [decodeByBits, h]
    have hblocks : decodeByBlocks s = .err .invalidCharacter x.1 x.2 := by rw [decodeByBlocks, h]
    exact ⟨by rw [decodeMessage_of_invalid h, hbits], hblocks.trans hbits.symm⟩

end Sys2Proof.Machine

/-! SUPPORT. How a line is read and a command written (30 R60): numbers, data, names and lines. -/

namespace Sys2Proof.Machine

variable {l digits : List Char} {c : Char} {n : Nat}

/-! ### Numbers (00 R8) -/

/-- A character of a number: a digit of base 16, or the `x` of `0x` (`b` is such a digit). -/
def IsNumeral (c : Char) : Prop := (hexDigit c).isSome = true ∨ c = 'x'

theorem readDigits_append (base n : Nat) (l m : List Char) :
    readDigits base n (l ++ m) = (readDigits base n l).bind fun k => readDigits base k m := by
  induction l generalizing n with
  | nil => rfl
  | cons c l ih =>
    simp only [List.cons_append, readDigits]
    cases hexDigit c with
    | none => rfl
    | some d =>
      simp only
      split
      · exact ih _
      · rfl

theorem isNumeral_of_readDigits {k : Nat} (h : readDigits base k digits = some n) : ∀ c ∈ digits, IsNumeral c := by
  induction digits generalizing k with
  | nil => exact fun _ h => nomatch h
  | cons c l ih =>
    rw [readDigits] at h
    cases hc : hexDigit c with
    | none => simp [hc] at h
    | some d =>
      simp only [hc] at h
      split at h
      · exact List.forall_mem_cons.mpr ⟨.inl (by rw [hc]; rfl), ih h⟩
      · cases h

/-- A text that reads as a number is not empty and holds only digits and the letter after its first `0`. -/
theorem isNumeral_of_readNumber (h : readNumber digits = some n) : digits ≠ [] ∧ ∀ c ∈ digits, IsNumeral c := by
  match digits, h with
  | [c], h | [c, d], h => exact ⟨nofun, isNumeral_of_readDigits h⟩
  | a :: b :: c :: l, h =>
    refine ⟨nofun, ?_⟩
    rw [readNumber] at h
    split_ifs at h with hhex hbin
    · obtain ⟨rfl, rfl⟩ := hhex
      exact List.forall_mem_cons.mpr ⟨.inl rfl, List.forall_mem_cons.mpr ⟨.inr rfl, isNumeral_of_readDigits h⟩⟩
    · obtain ⟨rfl, rfl⟩ := hbin
      exact List.forall_mem_cons.mpr ⟨.inl rfl, List.forall_mem_cons.mpr ⟨.inl rfl, isNumeral_of_readDigits h⟩⟩
    · exact isNumeral_of_readDigits h

/-- No character of a number ends a word, starts a comment or quotes. -/
theorem IsNumeral.ne_separator (h : IsNumeral c) : c ∉ [' ', ';', ',', ']', '\''] := by
  intro hc
  simp only [List.mem_cons, List.not_mem_nil, or_false] at hc
  obtain rfl | rfl | rfl | rfl | rfl := hc <;> revert h <;> simp [IsNumeral, hexDigit]

/-! ### A number as the datum of a command (30 R60) -/

theorem takeWord_of_isNumeral (h : ∀ c ∈ digits, IsNumeral c) : takeWord digits = (digits, []) := by
  induction digits with
  | nil => rfl
  | cons c l ih =>
    obtain ⟨hc, hl⟩ := List.forall_mem_cons.mp h
    have hsep := hc.ne_separator
    simp only [List.mem_cons, List.not_mem_nil, or_false, not_or] at hsep
    simp [takeWord, hsep, ih hl]

theorem readDatum_of_readNumber (h : readNumber digits = some n) :
    readDatum digits = (checkDatum n).map fun v => (v, []) := by
  obtain ⟨-, hnum⟩ := isNumeral_of_readNumber h
  have hdatum : readDatum digits = readNumberDatum digits := by
    unfold readDatum
    split
    · next q c r l =>
      have hq := (hnum q (.head _)).ne_separator
      simp at hq
      simp [hq]
    · rfl
  rw [hdatum, readNumberDatum, takeWord_of_isNumeral hnum]
  simp only [h]

/-- A datum that starts right after one space. -/
theorem skipSpaces_space (hc : c ≠ ' ') : skipSpaces (' ' :: c :: l) = c :: l := by
  simp [skipSpaces, hc]

theorem lineEnds_space (hc : c ≠ ' ') (hc' : c ≠ ';') : lineEnds (' ' :: c :: l) = false := by
  simp [lineEnds, skipSpaces_space hc, hc']

theorem withDatum_of_readNumber {f : BitVec 8 → Instr} (h : readNumber digits = some n) :
    withDatum f (' ' :: digits) = if n ≤ 255 then .ok [f (BitVec.ofNat 8 n)] else .error (.datumOutOfRange n) := by
  obtain ⟨hne, hnum⟩ := isNumeral_of_readNumber h
  obtain ⟨c, l, rfl⟩ := List.exists_cons_of_ne_nil hne
  have hsep := (hnum c (.head _)).ne_separator
  simp only [List.mem_cons, List.not_mem_nil, or_false, not_or] at hsep
  rw [withDatum, lineEnds_space hsep.1 hsep.2.1, skipSpaces_space hsep.1, readDatum_of_readNumber h, checkDatum,
    datumInRange]
  by_cases hn : n ≤ 255
  · simp [hn, Except.map, finishLine, lineEnds, skipSpaces]
  · simp [hn, Except.map]

/-- A character in single quotes (30 R60). -/
theorem withDatum_quoted {f : BitVec 8 → Instr} (h : c.toNat < 128) :
    withDatum f [' ', '\'', c, '\''] = .ok [f (BitVec.ofNat 8 c.toNat)] := by
  have hdatum : readDatum ['\'', c, '\''] = .ok (BitVec.ofNat 8 c.toNat, []) := by
    simp [readDatum, charDatum, h, Except.map]
  rw [withDatum, lineEnds_space (by decide) (by decide), skipSpaces_space (by decide), hdatum]
  rfl

/-! ### Names (30 R60) -/

/-- The names of the commands with a datum, and these commands. -/
def datumCommands : List (Written × (BitVec 8 → Instr)) :=
  [(.encPush, .encPush), (.encPushl, .encPushl), (.decPush, .decPush), (.decPushl, .decPushl)]

/-- A line that starts with the name of such a command, in capitals or small letters, and a space. -/
theorem assembleLine_of_datumCommand {nf : Written × (BitVec 8 → Instr)} (hnf : nf ∈ datumCommands)
    {word : List Char} (hword : word = nf.1.spelling ∨ word = nf.1.spelling.map Char.toLower) (rest : List Char) :
    assembleLine (word ++ ' ' :: rest) = withDatum nf.2 (' ' :: rest) := by
  simp only [datumCommands, List.mem_cons, List.not_mem_nil, or_false] at hnf
  obtain rfl | rfl | rfl | rfl := hnf <;> obtain rfl | rfl := hword <;> rfl

/-! ### Written data (30 R60) -/

@[simp] theorem length_hexDigits (k n : Nat) : (hexDigits k n).length = k := by
  induction k generalizing n with
  | zero => rfl
  | succ k ih => simp [hexDigits, ih]

theorem hexDigit_hexChar {d : Nat} (hd : d < 16) : hexDigit (hexChar d) = some d := by
  revert d; decide

theorem hexDigit_toLower_hexChar {d : Nat} (hd : d < 16) : hexDigit (hexChar d).toLower = some d := by
  revert d; decide

/-- The `k` lowest digits of a number read as the number, in any spelling `g` of the digits. -/
theorem readDigits_map_hexDigits {g : Char → Char} (hg : ∀ d < 16, hexDigit (g (hexChar d)) = some d) (k n : Nat) :
    readDigits 16 0 ((hexDigits k n).map g) = some (n % 16 ^ k) := by
  induction k generalizing n with
  | zero => simp [hexDigits, readDigits, Nat.mod_one]
  | succ k ih =>
    have hd : n % 16 < 16 := Nat.mod_lt _ (by decide)
    have hn : 16 * (n / 16 % 16 ^ k) + n % 16 = n % 16 ^ (k + 1) := by
      rw [Nat.pow_succ', Nat.mod_mul, Nat.add_comm]
    rw [hexDigits, List.map_append, readDigits_append, ih]
    simp [readDigits, hg _ hd, hd, hn]

/-- The written datum reads as its number. -/
theorem readNumber_hexDigits {g : Char → Char} (hg : ∀ d < 16, hexDigit (g (hexChar d)) = some d) (v : BitVec 8) :
    readNumber ('0' :: 'x' :: (hexDigits 2 v.toNat).map g) = some v.toNat := by
  have hv : v.toNat < 16 ^ 2 := v.isLt
  have hread := readDigits_map_hexDigits hg 2 v.toNat
  rw [Nat.mod_eq_of_lt hv] at hread
  exact hread

/-- A written command with a datum reads back. -/
theorem assembleLine_datum {nf : Written × (BitVec 8 → Instr)} (hnf : nf ∈ datumCommands) {word : List Char}
    (hword : word = nf.1.spelling ∨ word = nf.1.spelling.map Char.toLower) {g : Char → Char}
    (hg : ∀ d < 16, hexDigit (g (hexChar d)) = some d) (v : BitVec 8) :
    assembleLine (word ++ ' ' :: '0' :: 'x' :: (hexDigits 2 v.toNat).map g) = .ok [nf.2 v] := by
  have hv : v.toNat ≤ 255 := Nat.le_of_lt_succ v.isLt
  rw [assembleLine_of_datumCommand hnf hword, withDatum_of_readNumber (readNumber_hexDigits hg v), if_pos hv,
    BitVec.ofNat_toNat, BitVec.setWidth_eq]

/-- A command with a datum is one of the four, and how it is written. -/
theorem datumCommand_cases (i : Instr) : i = .encEnd ∨ i = .decEnd ∨
    ∃ nf ∈ datumCommands, ∃ v, i = nf.2 v ∧
      writeCommand i = nf.1.spelling ++ ' ' :: '0' :: 'x' :: hexDigits 2 v.toNat := by
  cases i with
  | encEnd => exact .inl rfl
  | decEnd => exact .inr (.inl rfl)
  | encPush v => exact .inr (.inr ⟨(.encPush, .encPush), by simp [datumCommands], v, rfl, rfl⟩)
  | encPushl v => exact .inr (.inr ⟨(.encPushl, .encPushl), by simp [datumCommands], v, rfl, rfl⟩)
  | decPush v => exact .inr (.inr ⟨(.decPush, .decPush), by simp [datumCommands], v, rfl, rfl⟩)
  | decPushl v => exact .inr (.inr ⟨(.decPushl, .decPushl), by simp [datumCommands], v, rfl, rfl⟩)

theorem assembleLine_writeCommand (i : Instr) : assembleLine (writeCommand i) = .ok [i] := by
  obtain rfl | rfl | ⟨nf, hnf, v, rfl, hwrite⟩ := datumCommand_cases i
  · rfl
  · rfl
  · have hline := assembleLine_datum hnf (.inl rfl) (g := id) (fun d hd => hexDigit_hexChar hd) v
    rw [List.map_id] at hline
    rw [hwrite, hline]

theorem assembleLine_map_toLower_writeCommand (i : Instr) :
    assembleLine ((writeCommand i).map Char.toLower) = .ok [i] := by
  obtain rfl | rfl | ⟨nf, hnf, v, rfl, hwrite⟩ := datumCommand_cases i
  · rfl
  · rfl
  · rw [hwrite, List.map_append]
    exact assembleLine_datum hnf (.inr rfl) (fun d hd => hexDigit_toLower_hexChar hd) v

/-- The first three digits of a listing line are the command's word. -/
theorem readDigits_listingLine (i : Instr) : readDigits 16 0 ((listingLine i).take 3) = some (encode i).toNat := by
  have hword : (encode i).toNat < 16 ^ 3 := (encode i).isLt.trans (by decide)
  have htake : (listingLine i).take 3 = hexDigits 3 (encode i).toNat := by
    rw [listingLine, List.append_assoc]
    exact List.take_left' (length_hexDigits ..)
  have hread := readDigits_map_hexDigits (g := id) (fun d hd => hexDigit_hexChar hd) 3 (encode i).toNat
  rw [List.map_id, Nat.mod_eq_of_lt hword] at hread
  rw [htake, hread]

/-- Settles O60: a line is read name first and then its datum, a number digit by digit. -/
theorem writtenCommandsReadBack : Obligations.WrittenCommandsReadBack := by
  refine ⟨fun i => ⟨assembleLine_writeCommand i, readDigits_listingLine i⟩, assembleLine_map_toLower_writeCommand,
    fun nf hnf => ⟨fun c hc => ?_, fun digits n h => ?_⟩, rfl, rfl, rfl, rfl, rfl, rfl⟩
  · rw [assembleLine_of_datumCommand hnf (.inl rfl), withDatum_quoted hc]
  · rw [assembleLine_of_datumCommand hnf (.inl rfl), withDatum_of_readNumber h]

end Sys2Proof.Machine
